-- ==== Sys2Proof/Word.lean ====
section
/-! DEFINITION. The widths of the machine's values (00_scope.md R10, 10_state.md R30). -/

namespace Sys2Proof

/-- 8 bits: a V register, a timer, a memory byte, the immediate NN (R10). -/
abbrev Byte := BitVec 8

/-- 16 bits: I, PC, a stack slot, an instruction word (R10, R70). -/
abbrev Word := BitVec 16

/-- 4 bits: a register number X or Y, the row count N (R10, R71). -/
abbrev Nibble := BitVec 4

/-- 12 bits: the address immediate NNN (R10, R71). -/
abbrev Addr12 := BitVec 12

/-- The 64 x 32 framebuffer as the port `fb_out` gives it: cell (x, y) is bit x + 64*y (R30, R35). -/
abbrev Screen := BitVec 2048

end Sys2Proof
end

