-- ==== Sys2Proof/Config.lean ====
section
/-! DEFINITION. The fixed parameters of R7, the free values of the step's inputs (R8) and the default FONT. -/

namespace Sys2Proof.Config

/-- MEM_SIZE (R7). -/
@[simp] abbrev memSize : Nat := 4096

/-- PROG_BASE: the load address and the first PC (R7). -/
@[simp] abbrev progBase : Nat := 0x200

/-- FONT_BASE (R7). -/
@[simp] abbrev fontBase : Nat := 0x000

/-- MAX_IMAGE = MEM_SIZE - PROG_BASE (R7). -/
@[simp] abbrev maxImage : Nat := 3584

/-- FB_W (R7). -/
@[simp] abbrev fbWidth : Nat := 64

/-- FB_H (R7). -/
@[simp] abbrev fbHeight : Nat := 32

/-- FREE VALUE. `keys_in` of step number n where the host has supplied no input for it: any 16 bits
(93_implementation_defined.md U7). DESIGN CHOICE, log entry 1. -/
opaque freeKeys : Nat → BitVec 16

/-- FREE VALUE. `rand_in` of step number n where the host has supplied no input for it: any byte
(93_implementation_defined.md U6). DESIGN CHOICE, log entry 1. -/
opaque freeRand : Nat → Byte

end Sys2Proof.Config

namespace Sys2Proof

/-- The parameter FONT[0..79] of R8: an argument of the load operation. -/
abbrev Font := Vector Byte 80

/-- The five rows of a glyph (R53). -/
def Config.glyph (a b c d e : Byte) : Vector Byte 5 := #v[a, b, c, d, e]

open Config in
/-- The default FONT (GK1 of 93_implementation_defined.md), which `load` takes only if it is given it. PRESUMED, log entry 7. -/
def Config.defaultFont : Font :=
  glyph 0xF0 0x90 0x90 0x90 0xF0 ++ glyph 0x20 0x60 0x20 0x20 0x70 ++
  glyph 0xF0 0x10 0xF0 0x80 0xF0 ++ glyph 0xF0 0x10 0xF0 0x10 0xF0 ++
  glyph 0x90 0x90 0xF0 0x10 0x10 ++ glyph 0xF0 0x80 0xF0 0x10 0xF0 ++
  glyph 0xF0 0x80 0xF0 0x90 0xF0 ++ glyph 0xF0 0x10 0x20 0x40 0x40 ++
  glyph 0xF0 0x90 0xF0 0x90 0xF0 ++ glyph 0xF0 0x90 0xF0 0x10 0xF0 ++
  glyph 0xF0 0x90 0xF0 0x90 0x90 ++ glyph 0xE0 0x90 0xE0 0x90 0xE0 ++
  glyph 0xF0 0x80 0x80 0x80 0xF0 ++ glyph 0xE0 0x90 0x90 0x90 0xE0 ++
  glyph 0xF0 0x80 0xF0 0x80 0xF0 ++ glyph 0xF0 0x80 0xF0 0x80 0x80

end Sys2Proof
end

