-- ==== Sys2Proof/WellFormed.lean ====
section
/-! DEFINITION. Which instructions and which program images are well formed. -/

namespace Sys2Proof

/-- Every term of `Instr` is a well-formed instruction: its operands' types are the widths of R71's fields,
and no pattern of R74 restricts a field's value (R75, R76: no encoding of a row is reserved). -/
def Instr.wellFormed : Instr → Bool
  | _ => true

/-- A program image is well formed when it fits above PROG_BASE: at most 3584 bytes (R201). -/
def imageWellFormed (image : List Byte) : Bool :=
  decide (image.length ≤ Config.maxImage)

end Sys2Proof
end

