-- ==== Sys2Proof/Machine/State.lean ====
section
/-! DEFINITION. The machine's state (10_state.md), the reasons a step stops, and the state after reset (R36). -/

namespace Sys2Proof.Machine

/-- The causes of a `Fatal(InvalidAddress, info)` outcome (60_exceptions.md R181) with the payload of R182.
`opcode` is absent in the answer of `exec` and filled in by `step`, which knows the fetched word (R91).
Each is SAFE: the hardware's step reports the same error and changes nothing but the key sample (R93, log entry 3). -/
inductive Fault where
  /-- The fetch's own check: PC + 1 > 0xFFF (R57). `addr` is the first of PC, PC + 1 outside the memory. Safe. -/
  | fetch (pc : Word) (addr : Nat)
  /-- RET at SP = 0 (R100). Safe. -/
  | stackUnderflow (pc : Word) (opcode : Option Word) (sp : Nat)
  /-- CALL at SP = 16 (R102). Safe. -/
  | stackOverflow (pc : Word) (opcode : Option Word) (sp : Nat)
  /-- DRW, LD B, LD [I] and LD VX, [I] whose access passes 0xFFF (R143, R144, R145, R162).
  `addr` is the lowest address of the access at or above 0x1000 (R146). Safe. -/
  | data (pc : Word) (opcode : Option Word) (addr : Nat)
  /-- SKP and SKNP with VX >= 16 (R170, R171). Safe. -/
  | keyIndex (pc : Word) (opcode : Option Word) (index : Byte)
  deriving DecidableEq, Repr

/-- Why a step has no instruction to run. -/
inductive Refusal where
  /-- Raised by an arm of `exec` whose instruction has no meaning yet; no arm raises it in this model. Safe. -/
  | notModelled (mnemonic : String)
  /-- Raised by `step` where the fetched word matches no row: the outcome `Unimplemented(w)` (R75, R94). Safe. -/
  | unimplemented (w : Word)
  deriving DecidableEq, Repr

/-- The `status` output of a step (40_step_cycle.md R92). -/
inductive Status where
  | ok
  | waiting
  | unimplemented (w : Word)
  | fatal (reason : Fault)
  deriving DecidableEq, Repr

/-- The inputs the host supplies to one step (10_state.md R35): `keys_in`, bit k for key k, and `rand_in`. -/
structure StepInput where
  keysIn : BitVec 16
  randIn : Byte
  deriving DecidableEq, Repr

/-- Memory as (address, byte) pairs in canonical form (`Memory.wf` in Machine/Ops.lean). -/
abbrev Memory := List Host.Cell

/-- Everything the spec gives the machine (10_state.md R33, and the outputs of R36), and the inputs of the steps to come. -/
structure State where
  /-- V0 to VF (R20); VF, number 15, doubles as the flag (R21) -/
  v : Vector Byte 16
  /-- index register (R23) -/
  i : Word
  /-- program counter: the address of the instruction being executed (R24) -/
  pc : Word
  /-- call-stack depth, 0 to 16 (R26) -/
  sp : Fin 17
  /-- call stack, outside the memory (R27) -/
  stack : Vector Word 16
  /-- delay timer (R28) -/
  dt : Byte
  /-- sound timer (R29) -/
  st : Byte
  /-- framebuffer (R30) -/
  fb : Screen
  /-- sampled key state, key k at bit k (R31) -/
  keys : BitVec 16
  /-- the 4096-byte memory (R32) -/
  mem : Memory
  /-- the `status` output of the last step (R35, R92, R36); no step reads it -/
  status : Status
  /-- the `beep` output of the last step (R35, R189, R36); no step reads it -/
  beep : Bool
  /-- the `rand_in` input of the running step (R8); the model's own field, log entries 1 and 2 -/
  randIn : Byte
  /-- the inputs the host supplies to the next steps, the next step's first (R35); the model's own field, log entries 1 and 2 -/
  inputs : List StepInput
  /-- how many steps have sampled their inputs; the model's own field, log entries 1 and 2 -/
  stepNo : Nat
  deriving DecidableEq, Repr

/-- The state right after `reset` (R36, R200). `randIn`, `inputs` and `stepNo` are the model's own (log entry 2). -/
def State.reset : State where
  v := Vector.replicate 16 0#8
  i := 0#16
  pc := 0x200#16
  sp := 0
  stack := Vector.replicate 16 0#16
  dt := 0#8
  st := 0#8
  fb := 0#2048
  keys := 0#16
  mem := []
  status := .ok
  beep := false
  randIn := 0#8
  inputs := []
  stepNo := 0

/-- The answer of a meaning. -/
abbrev Answer := Host.Outcome State Fault Refusal

end Sys2Proof.Machine
end

