-- ==== Sys2Proof/Machine/Ops.lean ====
section
/-! DEFINITION. The named operations over memory, registers, stack, inputs and timers, and the raising of a fatal error. -/

namespace Sys2Proof.Machine

/-! ### Memory (20_memory.md) -/

/-- What an unlisted address reads as: 0x00, the reset value of every byte (R36). -/
@[simp] abbrev unlistedByte : Byte := 0#8

/-- The canonical form: addresses strictly rising, each in [0, 4096), no entry equal to what an unlisted address reads as. -/
abbrev Memory.wf (m : Memory) : Prop :=
  m.Pairwise (fun c d => c.1 < d.1) ∧ ∀ c ∈ m, c.1 < Config.memSize ∧ c.2 ≠ unlistedByte

/-- MemRead(a, 1) once the address is checked (R11): the byte at address a. -/
def Memory.read : Memory → Nat → Byte
  | [], _ => unlistedByte
  | (k, b) :: m, a => if a = k then b else Memory.read m a

/-- Put byte b at address a, keeping the canonical form. -/
def Memory.insert : Memory → Nat → Byte → Memory
  | [], a, b => if b = unlistedByte then [] else [(a, b)]
  | (k, c) :: m, a, b =>
    if a < k then (if b = unlistedByte then (k, c) :: m else (a, b) :: (k, c) :: m)
    else if a = k then (if b = unlistedByte then m else (a, b) :: m)
    else (k, c) :: Memory.insert m a b

/-- MemWrite(a, 1, b) once the address is checked (R11). There is no byte to write at 4096 and above (R50). -/
def Memory.write (m : Memory) (a : Nat) (b : Byte) : Memory :=
  if a < Config.memSize then m.insert a b else m

/-- Write bytes at ascending addresses from a (R55). -/
def Memory.store (m : Memory) (a : Nat) : List Byte → Memory
  | [] => m
  | b :: bs => Memory.store (m.write a b) (a + 1) bs

/-- The n bytes at ascending addresses from a (R55). -/
def Memory.load (m : Memory) (a n : Nat) : List Byte :=
  (List.range n).map fun k => m.read (a + k)

/-- The check of an access of n bytes from address a: every address in [0, 4096) (R51, R59); none for no byte. -/
def accessOk (a n : Nat) : Bool := decide (n = 0 ∨ a + n ≤ Config.memSize)

/-- `info.addr` of a failed data access from I (R146): the lowest address at or above 0x1000. -/
def badDataAddr (i : Word) : Nat := max i.toNat Config.memSize

/-! ### Registers (R20, R23, R24) -/

/-- V[x] -/
def State.reg (s : State) (x : Nibble) : Byte := s.v[x.toNat]

/-- V[x] <- b -/
def State.setReg (s : State) (x : Nibble) (b : Byte) : State := { s with v := s.v.set x.toNat b }

/-- I <- a -/
def State.setI (s : State) (a : Word) : State := { s with i := a }

/-- PC <- a -/
def State.setPc (s : State) (a : Word) : State := { s with pc := a }

/-- PC <- (PC + 2) mod 2^16: the normal advance (R24) -/
def State.advance (s : State) : State := s.setPc (s.pc + 2#16)

/-- PC <- (PC + 4) mod 2^16 where the condition holds, else the normal advance (R114) -/
def State.skipIf (s : State) (c : Bool) : State := s.setPc (if c then s.pc + 4#16 else s.pc + 2#16)

/-- DT <- b (R28) -/
def State.setDt (s : State) (b : Byte) : State := { s with dt := b }

/-- ST <- b (R29) -/
def State.setSt (s : State) (b : Byte) : State := { s with st := b }

/-- The framebuffer becomes f (R30) -/
def State.setFb (s : State) (f : Screen) : State := { s with fb := f }

/-- The memory becomes m (R32) -/
def State.setMem (s : State) (m : Memory) : State := { s with mem := m }

/-- The `status` output becomes o (R92) -/
def State.setStatus (s : State) (o : Status) : State := { s with status := o }

/-- The first n registers of v loaded from n bytes at ascending addresses from a (R145) -/
def loadInto (m : Memory) (a : Nat) (v : Vector Byte 16) : Nat → Vector Byte 16
  | 0 => v
  | n + 1 => (loadInto m a v n).setIfInBounds n (m.read (a + n))

/-! ### The call stack (R26, R27) -/

/-- stack[SP] <- a; SP <- SP + 1, where SP < 16; no change where the stack is full -/
def State.push (s : State) (a : Word) : State :=
  if h : s.sp.val < 16 then
    { s with stack := s.stack.set s.sp.val a, sp := ⟨s.sp.val + 1, by omega⟩ }
  else s

/-- stack[SP - 1], where SP > 0 -/
def State.top (s : State) : Word := s.stack[s.sp.val - 1]'(by have := s.sp.isLt; omega)

/-- SP <- SP - 1; the slot keeps its value (R27, D26) -/
def State.pop (s : State) : State := { s with sp := ⟨s.sp.val - 1, by have := s.sp.isLt; omega⟩ }

/-! ### Fatal errors (60_exceptions.md R180 to R183)

The core has no trap: nothing is saved and control goes nowhere (R183). An error ends the step. -/

/-- check(c, kind, info) (R11): go on where c holds, else end the step with the fatal error f. -/
def check (c : Bool) (f : Fault) (k : Answer) : Answer := if c then k else .fault f

/-- The fatal error of a data access through I (R146). -/
def State.dataFault (s : State) : Fault := .data s.pc none (badDataAddr s.i)

/-- `info with opcode: w` (R91): the payload that names the fetched word; a fetch error has none (R182). -/
def Fault.withOpcode (w : Word) : Fault → Fault
  | .fetch pc addr => .fetch pc addr
  | .stackUnderflow pc _ sp => .stackUnderflow pc (some w) sp
  | .stackOverflow pc _ sp => .stackOverflow pc (some w) sp
  | .data pc _ addr => .data pc (some w) addr
  | .keyIndex pc _ index => .keyIndex pc (some w) index

/-! ### The phases of a step around the instruction (40_step_cycle.md R91) -/

/-- The inputs of the step that begins in s: the first the host supplied, or the free values of its number
(log entry 1). -/
def State.nextInput (s : State) : StepInput :=
  match s.inputs with
  | input :: _ => input
  | [] => ⟨Config.freeKeys s.stepNo, Config.freeRand s.stepNo⟩

/-- Phase 1: key[k] <- keys_in[k] for every k, and the step's rand_in; the inputs are used up.
The outputs take the values `status <- Ok` and beep 0, which the later phases may change (R91). -/
def State.sample (s : State) : State :=
  { s with
    keys := s.nextInput.keysIn
    randIn := s.nextInput.randIn
    inputs := s.inputs.tail
    stepNo := s.stepNo + 1
    status := .ok
    beep := false }

/-- The check of phase 2: PC and PC + 1 in [0, 4096) (R57). -/
def State.fetchOk (s : State) : Bool := decide (s.pc.toNat + 1 < Config.memSize)

/-- The fatal error of a fetch out of range: the first of PC and PC + 1 outside the memory (R57, R91). -/
def State.fetchFault (s : State) : Fault :=
  .fetch s.pc (if s.pc.toNat < Config.memSize then s.pc.toNat + 1 else s.pc.toNat)

/-- Phase 2: the big-endian word at PC (R54). -/
def State.fetch (s : State) : Word :=
  wordOfBytes (s.mem.read s.pc.toNat) (s.mem.read (s.pc.toNat + 1))

/-- One timer's tick: down by 1 while nonzero (R188). -/
def tickByte (t : Byte) : Byte := if t = 0#8 then 0#8 else t - 1#8

/-- Phase 5: beep from ST before its decrement (R189), then both timers tick (R188). -/
def State.tick (s : State) : State :=
  { s with
    beep := decide (s.st ≠ 0#8)
    dt := tickByte s.dt
    st := tickByte s.st }

/-- Phases 3 to 5 for an answer of the instruction whose word is w: the tick after a completed instruction,
the opcode added to a fatal error's payload. -/
def finish (w : Word) : Answer → Answer
  | .next t => .next t.tick
  | .fault f => .fault (f.withOpcode w)
  | .refused r => .refused r

/-- The instruction's bytes placed where the next step fetches them: at PC and PC + 1 (R54). -/
def State.placeWord (s : State) (nbits w : Nat) : State :=
  s.setMem (s.mem.store s.pc.toNat (tableBytes nbits w))

/-- The state a step from s leaves where it answers a: the next state; or, where the step was fatal (R93) or
unimplemented (R94), s with its key sample, that status and beep 0 (R92). -/
def State.left (s : State) : Answer → State
  | .next t => t
  | .fault f => s.sample.setStatus (.fatal f)
  | .refused (.unimplemented w) => s.sample.setStatus (.unimplemented w)
  | .refused _ => s.sample

end Sys2Proof.Machine
end

