-- ==== Sys2Proof/Machine/Operands.lean ====
section
/-! DEFINITION. The operand forms of the instructions (30_encoding.md R72, 44_index_memory.md R146). -/

namespace Sys2Proof.Machine

/-- An absolute address NNN, zero-extended to 16 bits (R72). -/
def absolute (nnn : Addr12) : Word := nnn.setWidth 16

/-- A byte zero-extended to 16 bits (R10). -/
def zext16 (b : Byte) : Word := b.setWidth 16

/-- The target of BNNN: NNN + V0, not wrapped at 12 bits (R103). -/
def offsetTarget (nnn : Addr12) (v0 : Byte) : Word := absolute nnn + zext16 v0

/-- The address of the font glyph of value b: b * 5 over all 8 bits of b (R142). -/
def glyphAddr (b : Byte) : Word := zext16 b * 5#16

/-- The effective address of byte 0 of an access through I, an unbounded integer (R146). -/
def State.dataAddr (s : State) : Nat := s.i.toNat

/-- The number of registers V0 to VX (R144, R145). -/
def regCount (x : Nibble) : Nat := x.toNat + 1

/-- V0 to VX in ascending order (R144). -/
def State.firstRegs (s : State) (x : Nibble) : List Byte := s.v.toList.take (regCount x)

/-- I after an access to X + 1 bytes: (I + X + 1) mod 2^16 (R144, R145). -/
def State.iPast (s : State) (x : Nibble) : Word := s.i + BitVec.ofNat 16 (regCount x)

/-- The three decimal digits of b: hundreds, tens, ones (R143). -/
def bcdDigits (b : Byte) : List Byte :=
  [BitVec.ofNat 8 (b.toNat / 100), BitVec.ofNat 8 (b.toNat / 10 % 10), BitVec.ofNat 8 (b.toNat % 10)]

/-- Logical key k is pressed in the sampled key state (R31). -/
def State.keyDown (s : State) (k : Nat) : Bool := s.keys.getLsbD k

/-- The lowest-numbered pressed key, if any (R173). -/
def State.lowestKey (s : State) : Option Nat := (List.range 16).find? fun k => s.keyDown k

end Sys2Proof.Machine
end

