-- ==== Sys2Proof/Machine/Flags.lean ====
section
/-! DEFINITION. The values written to VF as a flag (10_state.md R21) and the flag's register. -/

namespace Sys2Proof.Machine

/-- VF, the flag register (R21). -/
@[simp] abbrev vf : Nibble := 0xF#4

/-- A flag's byte: 1 or 0. -/
def flagByte (c : Bool) : Byte := if c then 1#8 else 0#8

/-- Carry of 8XY4: the unbounded sum exceeds 255 (R126). -/
def carry (a b : Byte) : Byte := flagByte (decide (a.toNat + b.toNat > 255))

/-- NOT-borrow of a - b: 0 where b > a, else 1 (R127, R129). -/
def notBorrow (a b : Byte) : Byte := flagByte (decide (b.toNat ≤ a.toNat))

/-- The bit 8XY6 shifts out: bit 0 (R128). -/
def lowBit (a : Byte) : Byte := a &&& 1#8

/-- The bit 8XYE shifts out: bit 7 (R130). -/
def highBit (a : Byte) : Byte := a >>> 7

/-- The index overflow of FX1E: the unbounded sum I + VX exceeds 0xFFF (R141). -/
def indexOverflow (i : Word) (b : Byte) : Byte := flagByte (decide (i.toNat + b.toNat > 0xFFF))

/-- VF <- flag -/
def State.setFlag (s : State) (b : Byte) : State := s.setReg vf b

end Sys2Proof.Machine
end

