-- ==== Sys2Proof/Machine/Alu.lean ====
section
/-! DEFINITION. Register loads and arithmetic (43_alu.md). -/

namespace Sys2Proof.Machine

/-- The shape of the rows without a flag: VX <- b, then PC + 2. -/
def State.result (s : State) (x : Nibble) (b : Byte) : Answer := .next (s.setReg x b).advance

/-- The shape of the rows 8XY4 to 8XYE (R133): VF <- flag first, then VX <- f of the registers as that write left them,
then PC + 2. -/
def State.flagThenResult (s : State) (flag : Byte) (x : Nibble) (f : State → Byte) : Answer :=
  (s.setFlag flag).result x (f (s.setFlag flag))

/-- 6XNN LD VX, NN (R120). -/
def execLdImm (x : Nibble) (nn : Byte) (s : State) : Answer := s.result x nn

/-- 7XNN ADD VX, NN (R121): no flag. -/
def execAddImm (x : Nibble) (nn : Byte) (s : State) : Answer := s.result x (s.reg x + nn)

/-- 8XY0 LD VX, VY (R122). -/
def execLdReg (x y : Nibble) (s : State) : Answer := s.result x (s.reg y)

/-- 8XY1 OR VX, VY (R123). -/
def execOr (x y : Nibble) (s : State) : Answer := s.result x (s.reg x ||| s.reg y)

/-- 8XY2 AND VX, VY (R124). -/
def execAnd (x y : Nibble) (s : State) : Answer := s.result x (s.reg x &&& s.reg y)

/-- 8XY3 XOR VX, VY (R125). -/
def execXor (x y : Nibble) (s : State) : Answer := s.result x (s.reg x ^^^ s.reg y)

/-- 8XY4 ADD VX, VY (R126). -/
def execAddReg (x y : Nibble) (s : State) : Answer :=
  s.flagThenResult (carry (s.reg x) (s.reg y)) x fun t => t.reg x + t.reg y

/-- 8XY5 SUB VX, VY (R127). -/
def execSub (x y : Nibble) (s : State) : Answer :=
  s.flagThenResult (notBorrow (s.reg x) (s.reg y)) x fun t => t.reg x - t.reg y

/-- 8XY6 SHR VX (R128). -/
def execShr (x : Nibble) (s : State) : Answer :=
  s.flagThenResult (lowBit (s.reg x)) x fun t => t.reg x >>> 1

/-- 8XY7 SUBN VX, VY (R129). -/
def execSubn (x y : Nibble) (s : State) : Answer :=
  s.flagThenResult (notBorrow (s.reg y) (s.reg x)) x fun t => t.reg y - t.reg x

/-- 8XYE SHL VX (R130). -/
def execShl (x : Nibble) (s : State) : Answer :=
  s.flagThenResult (highBit (s.reg x)) x fun t => t.reg x <<< 1

/-- CXNN RND VX, NN (R131): the step's rand_in. -/
def execRnd (x : Nibble) (nn : Byte) (s : State) : Answer := s.result x (s.randIn &&& nn)

end Sys2Proof.Machine
end

