-- ==== Sys2Proof/Machine/Index.lean ====
section
/-! DEFINITION. Index register and memory instructions (44_index_memory.md). -/

namespace Sys2Proof.Machine

/-- An access to n bytes through I (R146): all its addresses are checked before any byte moves. -/
def State.access (s : State) (n : Nat) (k : Answer) : Answer := check (accessOk s.dataAddr n) s.dataFault k

/-- ANNN LD I, NNN (R140). -/
def execLdI (nnn : Addr12) (s : State) : Answer := .next (s.setI (absolute nnn)).advance

/-- FX1E ADD I, VX (R141): VF first, then I from VX as that write left it. -/
def execAddI (x : Nibble) (s : State) : Answer :=
  let t := s.setFlag (indexOverflow s.i (s.reg x))
  .next (t.setI (t.i + zext16 (t.reg x))).advance

/-- FX29 LD F, VX (R142). -/
def execLdF (x : Nibble) (s : State) : Answer := .next (s.setI (glyphAddr (s.reg x))).advance

/-- FX33 LD B, VX (R143). -/
def execLdB (x : Nibble) (s : State) : Answer :=
  s.access 3 (.next (s.setMem (s.mem.store s.dataAddr (bcdDigits (s.reg x)))).advance)

/-- FX55 LD [I], VX (R144). -/
def execStoreRegs (x : Nibble) (s : State) : Answer :=
  s.access (regCount x) (.next ((s.setMem (s.mem.store s.dataAddr (s.firstRegs x))).setI (s.iPast x)).advance)

/-- FX65 LD VX, [I] (R145). -/
def execLoadRegs (x : Nibble) (s : State) : Answer :=
  s.access (regCount x)
    (.next (State.setI { s with v := loadInto s.mem s.dataAddr s.v (regCount x) } (s.iPast x)).advance)

end Sys2Proof.Machine
end

