-- ==== Sys2Proof/Machine/Display.lean ====
section
/-! DEFINITION. Framebuffer and sprite drawing (45_display.md). -/

namespace Sys2Proof.Machine

/-- The cell's place in the framebuffer: x + y*64 (R30). -/
def cellIndex (x y : Nat) : Nat := x + y * Config.fbWidth

/-- get(x, y) (R160). -/
def getCell (fb : Screen) (x y : Nat) : Bool := fb.getLsbD (cellIndex x y)

/-- toggle(x, y) (R160): an XOR. -/
def toggleCell (fb : Screen) (x y : Nat) : Screen := fb ^^^ (1#2048 <<< cellIndex x y)

/-- clear(x, y) (R160); no instruction uses it. -/
def clearCell (fb : Screen) (x y : Nat) : Screen := fb &&& ~~~(1#2048 <<< cellIndex x y)

/-- clear_all() (R160). -/
def clearAll : Screen := 0#2048

/-- The cell (x, y) is on the grid (R163). -/
def onGrid (x y : Nat) : Bool := decide (x < Config.fbWidth ∧ y < Config.fbHeight)

/-- The on-grid cells of the set bits of one sprite row at (x0, y), most significant bit first (R162, R163). -/
def rowCells (x0 y : Nat) (b : Byte) : List (Nat × Nat) :=
  ((List.range 8).filter fun c => b.getLsbD (7 - c) && onGrid (x0 + c) y).map fun c => (x0 + c, y)

/-- The on-grid cells of a sprite's set bits, row by row from (x0, y0), as unbounded integers (R162, R163). -/
def spriteCells (x0 : Nat) : Nat → List Byte → List (Nat × Nat)
  | _, [] => []
  | y, b :: rows => rowCells x0 y b ++ spriteCells x0 (y + 1) rows

/-- One cell of a draw (R162): a cell that is on is a collision; then it is toggled. -/
def drawCell (p : Screen × Bool) (c : Nat × Nat) : Screen × Bool :=
  (toggleCell p.1 c.1 c.2, p.2 || getCell p.1 c.1 c.2)

/-- A draw of the cells in order: the framebuffer after it, and whether any cell was turned off (R162). -/
def drawCells (fb : Screen) (cells : List (Nat × Nat)) : Screen × Bool := cells.foldl drawCell (fb, false)

/-- The cells DXYN draws in s: N sprite rows from memory at I, at (VX, VY) (R162). -/
def State.spriteOf (s : State) (x y n : Nibble) : List (Nat × Nat) :=
  spriteCells (s.reg x).toNat (s.reg y).toNat (s.mem.load s.dataAddr n.toNat)

/-- 00E0 CLS (R161). -/
def execCls (s : State) : Answer := .next (s.setFb clearAll).advance

/-- DXYN DRW VX, VY, N (R162): VX and VY are read before VF, which is written last (R164). -/
def execDrw (x y n : Nibble) (s : State) : Answer :=
  let drawn := drawCells s.fb (s.spriteOf x y n)
  s.access n.toNat (.next ((s.setFb drawn.1).setFlag (flagByte drawn.2)).advance)

end Sys2Proof.Machine
end

