-- ==== Sys2Proof/Machine/Flow.lean ====
section
/-! DEFINITION. Jumps, calls and returns (41_flow.md). -/

namespace Sys2Proof.Machine

/-- 00EE RET (R100). -/
def execRet (s : State) : Answer :=
  check (decide (0 < s.sp.val)) (.stackUnderflow s.pc none s.sp.val) (.next (s.pop.setPc (s.top + 2#16)))

/-- 1NNN JP NNN (R101). -/
def execJp (nnn : Addr12) (s : State) : Answer := .next (s.setPc (absolute nnn))

/-- 2NNN CALL NNN (R102): the address of the CALL itself is pushed. -/
def execCall (nnn : Addr12) (s : State) : Answer :=
  check (decide (s.sp.val < 16)) (.stackOverflow s.pc none s.sp.val) (.next ((s.push s.pc).setPc (absolute nnn)))

/-- BNNN JP V0, NNN (R103). -/
def execJpV0 (nnn : Addr12) (s : State) : Answer := .next (s.setPc (offsetTarget nnn (s.reg 0#4)))

end Sys2Proof.Machine
end

