-- ==== Sys2Proof/Machine/Skip.lean ====
section
/-! DEFINITION. Conditional skips on registers (42_skip.md). -/

namespace Sys2Proof.Machine

/-- 3XNN SE VX, NN (R110). -/
def execSeImm (x : Nibble) (nn : Byte) (s : State) : Answer := .next (s.skipIf (s.reg x == nn))

/-- 4XNN SNE VX, NN (R111). -/
def execSneImm (x : Nibble) (nn : Byte) (s : State) : Answer := .next (s.skipIf (s.reg x != nn))

/-- 5XY0 SE VX, VY (R112). -/
def execSeReg (x y : Nibble) (s : State) : Answer := .next (s.skipIf (s.reg x == s.reg y))

/-- 9XY0 SNE VX, VY (R113). -/
def execSneReg (x y : Nibble) (s : State) : Answer := .next (s.skipIf (s.reg x != s.reg y))

end Sys2Proof.Machine
end

