-- ==== Sys2Proof/Machine/TimerKey.lean ====
section
/-! DEFINITION. Key and timer instructions (46_timer_key.md). -/

namespace Sys2Proof.Machine

/-- The check of EX9E and EXA1: the key number is below 16 (R170, R171). -/
def State.withKeyIndex (s : State) (b : Byte) (k : Answer) : Answer :=
  check (decide (b.toNat < 16)) (.keyIndex s.pc none b) k

/-- EX9E SKP VX (R170). -/
def execSkp (x : Nibble) (s : State) : Answer :=
  s.withKeyIndex (s.reg x) (.next (s.skipIf (s.keyDown (s.reg x).toNat)))

/-- EXA1 SKNP VX (R171). -/
def execSknp (x : Nibble) (s : State) : Answer :=
  s.withKeyIndex (s.reg x) (.next (s.skipIf (!s.keyDown (s.reg x).toNat)))

/-- FX07 LD VX, DT (R172). -/
def execLdVxDt (x : Nibble) (s : State) : Answer := .next (s.setReg x s.dt).advance

/-- What FX0A leaves where `key` is the lowest pressed key, or none is (R173). -/
def State.keyWait (s : State) (x : Nibble) (key : Option Nat) : State :=
  match key with
  | some k => (s.setReg x (BitVec.ofNat 8 k)).advance
  | none => s.setStatus .waiting

/-- FX0A LD VX, K (R173): with no key pressed the step is `Waiting` and PC stays. -/
def execLdVxK (x : Nibble) (s : State) : Answer := .next (s.keyWait x s.lowestKey)

/-- FX15 LD DT, VX (R174). -/
def execLdDtVx (x : Nibble) (s : State) : Answer := .next (s.setDt (s.reg x)).advance

/-- FX18 LD ST, VX (R175). -/
def execLdStVx (x : Nibble) (s : State) : Answer := .next (s.setSt (s.reg x)).advance

end Sys2Proof.Machine
end

