-- ==== Sys2Proof/Machine/Step.lean ====
section
/-! DEFINITION. One step of the core: sample, fetch, decode, execute, tick (40_step_cycle.md R91). -/

namespace Sys2Proof.Machine

/-- Phases 2 to 5 in the state that phase 1 left. -/
def stepSampled (s : State) : Host.Outcome State Fault Refusal :=
  if s.fetchOk then
    match decode s.fetch with
    | some i => finish s.fetch (exec i s)
    | none => .refused (.unimplemented s.fetch)
  else .fault s.fetchFault

/-- One step (R90, R91). A `Fatal` outcome is a fault (log entry 3), an `Unimplemented` outcome a refusal
(log entry 4); `Ok` and `Waiting` are next states, told apart by the `status` output. -/
def step (s : State) : Host.Outcome State Fault Refusal := stepSampled s.sample

/-- The state a step leaves in EVERY outcome, with its `status` and `beep` outputs (R92, R93, R94). -/
def stateAfter (s : State) : State := s.left (step s)

/-- s with an instruction stored where the next step fetches: at PC and PC + 1, big-endian (R54). It stands for the
program load of R201 (log entry 8). -/
def State.withFetchWord (s : State) (nbits w : Nat) : State := s.placeWord nbits w

end Sys2Proof.Machine
end

