-- ==== Sys2Proof/Machine/Boot.lean ====
section
/-! DEFINITION. The host's operations between steps: reset and load (70_reset_and_hazards.md). -/

namespace Sys2Proof.Machine

/-- The `load_status` output (R201). -/
inductive LoadStatus where
  | loaded
  /-- LoadError(TooLarge): the image is longer than 3584 bytes -/
  | tooLarge
  deriving DecidableEq, Repr

/-- The `reset` request in a state (R200): every element of R36 takes its reset value. The inputs of the steps to come
are the host's and stay (log entry 6). -/
def State.hostReset (s : State) : State :=
  { State.reset with randIn := s.randIn, inputs := s.inputs, stepNo := s.stepNo }

/-- The memory after a load: the image from 0x200 upward, then the font from 0x000 (R201). -/
def loadedMem (font : Font) (image : List Byte) (m : Memory) : Memory :=
  (m.store Config.progBase image).store Config.fontBase font.toList

/-- The `load(image)` request in a state, with FONT as its argument (R8, R201, R202). -/
def State.load (font : Font) (image : List Byte) (s : State) : LoadStatus × State :=
  if imageWellFormed image then
    (.loaded,
      { s with
        mem := loadedMem font image s.mem
        pc := BitVec.ofNat 16 Config.progBase
        sp := 0
        dt := 0#8
        st := 0#8
        fb := 0#2048
        keys := 0#16 })
  else (.tooLarge, s)

/-- The machine as it stands before a program's first step (R203): reset, then load. -/
def booted (font : Font) (image : List Byte) : State := (State.reset.load font image).2

end Sys2Proof.Machine
end

