-- ==== Sys2Proof/Safety.lean ====
section
/-! DEFINITION. The terms claims are made in: what an instruction may write, the invariant of a run, a run without a stop. -/

namespace Sys2Proof.Machine

/-! ### Frames (40_step_cycle.md R95) -/

/-- What an instruction may write beside PC. What has no field here (the key state, `beep`, the inputs) no instruction
writes at all (R31, R189). -/
structure Footprint where
  /-- the V registers written -/
  regs : Nibble → Prop := fun _ => False
  /-- I is written -/
  index : Bool := false
  /-- SP and the call stack are written -/
  calls : Bool := false
  /-- DT is written -/
  delay : Bool := false
  /-- ST is written -/
  sound : Bool := false
  /-- the framebuffer is written -/
  screen : Bool := false
  /-- the addresses stored to -/
  bytes : Nat → Prop := fun _ => False
  /-- the `status` output is set (to `Waiting`) -/
  status : Bool := false

/-- From s to t nothing changed but PC and what the footprint names. -/
structure Keeps (f : Footprint) (s t : State) : Prop where
  regs : ∀ r, ¬ f.regs r → t.reg r = s.reg r
  index : f.index = false → t.i = s.i
  calls : f.calls = false → t.sp = s.sp ∧ t.stack = s.stack
  delay : f.delay = false → t.dt = s.dt
  sound : f.sound = false → t.st = s.st
  screen : f.screen = false → t.fb = s.fb
  bytes : ∀ a, ¬ f.bytes a → t.mem.read a = s.mem.read a
  status : f.status = false → t.status = s.status
  keys : t.keys = s.keys
  beep : t.beep = s.beep
  inputs : t.randIn = s.randIn ∧ t.inputs = s.inputs ∧ t.stepNo = s.stepNo

/-- The footprint of each instruction: the `writes` column of 10_state.md R22 for the V registers, and the writers that
R23 (I), R26 and R27 (SP, stack), R28 and R29 (timers), R30 (framebuffer) and R58 (memory) name. -/
def footprint (s : State) : Instr → Footprint
  | .cls => { screen := true }
  | .ret => { calls := true }
  | .jp _ => {}
  | .call _ => { calls := true }
  | .seImm _ _ => {}
  | .sneImm _ _ => {}
  | .seReg _ _ => {}
  | .ldImm x _ => { regs := fun r => r = x }
  | .addImm x _ => { regs := fun r => r = x }
  | .ldReg x _ => { regs := fun r => r = x }
  | .orReg x _ => { regs := fun r => r = x }
  | .andReg x _ => { regs := fun r => r = x }
  | .xorReg x _ => { regs := fun r => r = x }
  | .addReg x _ => { regs := fun r => r = x ∨ r = vf }
  | .subReg x _ => { regs := fun r => r = x ∨ r = vf }
  | .shr x _ => { regs := fun r => r = x ∨ r = vf }
  | .subnReg x _ => { regs := fun r => r = x ∨ r = vf }
  | .shl x _ => { regs := fun r => r = x ∨ r = vf }
  | .sneReg _ _ => {}
  | .ldI _ => { index := true }
  | .jpV0 _ => {}
  | .rnd x _ => { regs := fun r => r = x }
  | .drw _ _ _ => { regs := fun r => r = vf, screen := true }
  | .skp _ => {}
  | .sknp _ => {}
  | .ldVxDt x => { regs := fun r => r = x }
  | .ldVxK x => { regs := fun r => r = x, status := true }
  | .ldDtVx _ => { delay := true }
  | .ldStVx _ => { sound := true }
  | .addI _ => { regs := fun r => r = vf, index := true }
  | .ldF _ => { index := true }
  | .ldB _ => { bytes := fun a => s.dataAddr ≤ a ∧ a < s.dataAddr + 3 }
  | .storeRegs x => { index := true, bytes := fun a => s.dataAddr ≤ a ∧ a < s.dataAddr + regCount x }
  | .loadRegs x => { regs := fun r => r.toNat ≤ x.toNat, index := true }

/-- PC moved on by n bytes, modulo 2^16 (R24). -/
def PcPlus (n : Nat) (s t : State) : Prop := t.pc.toNat = (s.pc.toNat + n) % 2 ^ 16

/-! ### The draw of 45_display.md R162 and R163, cell by cell -/

/-- The cell (cx, cy) lies under a set bit of the N-row sprite at I drawn at (VX, VY): bit 7 - (cx - VX) of row cy - VY. -/
def State.spriteBit (s : State) (x y n : Nibble) (cx cy : Nat) : Prop :=
  (s.reg x).toNat ≤ cx ∧ cx < (s.reg x).toNat + 8 ∧
  (s.reg y).toNat ≤ cy ∧ cy < (s.reg y).toNat + n.toNat ∧
  (s.mem.read (s.i.toNat + (cy - (s.reg y).toNat))).getLsbD (7 - (cx - (s.reg x).toNat)) = true

/-! ### The invariant of every run, and runs -/

/-- What holds at reset and after every step, load and reset: the memory is canonical, PC has not run past the furthest
jump (0x10FE, R103), and every live stack slot holds an address that a fetch accepted (R100, R24). -/
structure Inv (s : State) : Prop where
  mem : s.mem.wf
  pc : s.pc.toNat ≤ 0x10FE
  stack : ∀ k : Fin 16, k.val < s.sp.val → (s.stack[k]).toNat ≤ 0xFFE

/-- The state n steps after s, whichever their outcomes (R92), where the host supplies the inputs `supplied k` after step k. -/
def laterState (supplied : Nat → List StepInput) (s : State) : Nat → State
  | 0 => s
  | k + 1 => { stateAfter (laterState supplied s k) with inputs := supplied k }

/-- The first n steps from s end in no fatal error and no unimplemented word. -/
def SafeRun (n : Nat) (s : State) : Prop := ∃ t, Sys2Proof.core.run n s = .next t

end Sys2Proof.Machine
end

