-- ==== Sys2Proof/Certificates/Slice0/Obligations.lean ====
section
/-! DEFINITION. The statements for the provers, from the numbered rules of spec/. Results are stated as the rules write
them: on unbounded numbers, reduced where the rule reduces. `Keeps` is the frame: what it does not name is unchanged. -/

open Sys2Proof Sys2Proof.Machine

/-! ### Encoding (30_encoding.md) -/

/-- Words written out from R74's patterns decode to the instructions they stand for. -/
def Obligations.SampleWordsDecode : Prop :=
  decode 0b0000000011100000#16 = some .cls ∧
  decode 0b0010001101000101#16 = some (.call 0x345#12) ∧
  decode 0b0101000100100000#16 = some (.seReg 1#4 2#4) ∧
  decode 0b1000111100100110#16 = some (.shr 0xF#4 2#4) ∧
  decode 0b1101000100100101#16 = some (.drw 1#4 2#4 5#4) ∧
  decode 0b1110010110011110#16 = some (.skp 5#4) ∧
  decode 0b1111001001100101#16 = some (.loadRegs 2#4) ∧
  decode 0b0101000000000001#16 = none

/-- The decoder gives back every instruction from its bytes, whatever bytes follow. -/
def Obligations.DecodeOfEncodedBytesGivesInstr : Prop :=
  ∀ (i : Instr) (rest : List Byte), i.wellFormed = true → decodeBytes (encodeBytes i ++ rest) = .ok (i, rest)

/-- Each word has one meaning: the encoder gives back the word an instruction was decoded from. -/
def Obligations.EncodeOfDecodedGivesWord : Prop :=
  ∀ (w : Word) (i : Instr), decode w = some i → encode i = w

/-- A word decodes to an instruction of exactly the rows of the opcode map that select it: an instruction's row selects
its word, and where any row selects a word, the word decodes to an instruction of that row. So no word matches two rows. -/
def Obligations.DecodeFollowsOpcodeMap : Prop :=
  ∀ w : Word,
    (∀ i, decode w = some i → (opcodeRow i).selects w = true) ∧
    (∀ i, (opcodeRow i).selects w = true → ∃ j, decode w = some j ∧ opcodeRow j = opcodeRow i)

/-- The unimplemented words are exactly the six classes of R75's table. -/
def Obligations.UnimplementedWordsAreTheSixClasses : Prop :=
  ∀ w : Word, decode w = none ↔
    (fieldOp w = 0x0#4 ∧ w ≠ 0x00E0#16 ∧ w ≠ 0x00EE#16) ∨
    (fieldOp w = 0x5#4 ∧ fieldN w ≠ 0#4) ∨
    (fieldOp w = 0x8#4 ∧ fieldN w ∈ [0x8#4, 0x9#4, 0xA#4, 0xB#4, 0xC#4, 0xD#4, 0xF#4]) ∨
    (fieldOp w = 0x9#4 ∧ fieldN w ≠ 0#4) ∨
    (fieldOp w = 0xE#4 ∧ fieldNN w ∉ [0x9E#8, 0xA1#8]) ∨
    (fieldOp w = 0xF#4 ∧ fieldNN w ∉ [0x07#8, 0x0A#8, 0x15#8, 0x18#8, 0x1E#8, 0x29#8, 0x33#8, 0x55#8, 0x65#8])

/-! ### The step (40_step_cycle.md, 60_exceptions.md) -/

/-- Where PC and PC + 1 are in the memory and the big-endian word w there decodes to i, a step is the instruction run on
the sampled state; then the tick, or the word added to a fatal error's payload (40_step_cycle.md R91). That a fatal error is
a fault, an unimplemented word a refusal, and that `step` adds the word is the model's choice, log entries 3, 4 and 13. -/
def Obligations.StepRunsTheDecodedInstruction : Prop :=
  ∀ (s : State) (w : Word) (i : Instr), s.pc.toNat + 1 ≤ 0xFFF →
    w.toNat = (s.mem.read s.pc.toNat).toNat * 256 + (s.mem.read (s.pc.toNat + 1)).toNat → decode w = some i →
    step s = match exec i s.sample with
      | .next t => .next t.tick
      | .fault f => .fault (f.withOpcode w)
      | .refused r => .refused r

/-- In every outcome the key state after the step is the `keys_in` the host supplied for it (key k is bit k), and no
instruction changed it; with no input supplied it is the free value of the step's number (the model's choice, log entry 1). -/
def Obligations.KeySampleStandsInEveryOutcome : Prop :=
  ∀ s : State,
    (∀ input rest, s.inputs = input :: rest →
      (∀ k < 16, (stateAfter s).keyDown k = input.keysIn.getLsbD k) ∧ (stateAfter s).randIn = input.randIn ∧
      (stateAfter s).inputs = rest) ∧
    (s.inputs = [] → (stateAfter s).keys = Config.freeKeys s.stepNo ∧ (stateAfter s).randIn = Config.freeRand s.stepNo)

/-- What the phases around the instruction leave alone: the sample writes the key state and the step's own inputs, the tick
writes the timers and beep, and neither writes anything else of the spec's state. That the sample also presets `status` to
Ok and beep to 0 is the model's choice, log entry 5: phase 1 of R91 samples the keys only. -/
def Obligations.SampleAndTickWriteOnlyTheirParts : Prop :=
  ∀ s t u : State, t = s.sample → u = s.tick →
    ((∀ r, t.reg r = s.reg r) ∧ t.i = s.i ∧ t.pc = s.pc ∧ t.sp = s.sp ∧ t.stack = s.stack ∧ t.dt = s.dt ∧ t.st = s.st ∧
      t.fb = s.fb ∧ (∀ a, t.mem.read a = s.mem.read a) ∧ t.status = .ok ∧ t.beep = false) ∧
    ((∀ r, u.reg r = s.reg r) ∧ u.i = s.i ∧ u.pc = s.pc ∧ u.sp = s.sp ∧ u.stack = s.stack ∧ u.fb = s.fb ∧
      u.keys = s.keys ∧ (∀ a, u.mem.read a = s.mem.read a) ∧ u.status = s.status ∧ u.randIn = s.randIn ∧
      u.inputs = s.inputs ∧ u.stepNo = s.stepNo)

/-- A step that ends in a next state ticked both timers once after its instruction and beeped iff ST was nonzero at the
tick; any other step left the timers and gave beep 0.
Spec decisions D6, D7, D24, D27. -/
def Obligations.TimersTickOnceInCompletedSteps : Prop :=
  ∀ s : State,
    (∀ t, step s = .next t → ∃ i u, decode s.sample.fetch = some i ∧ exec i s.sample = .next u ∧
      t.dt.toNat = u.dt.toNat - 1 ∧ t.st.toNat = u.st.toNat - 1 ∧ (t.beep = true ↔ u.st.toNat ≠ 0)) ∧
    ((∀ t, step s ≠ .next t) →
      (stateAfter s).dt = s.dt ∧ (stateAfter s).st = s.st ∧ (stateAfter s).beep = false)

/-- While no FX15 is the step's word, the delay timer after n completed steps is n lower, and never below 0.
The spec's own inference in R207. -/
def Obligations.DelayTimerCountsDownOverSteps : Prop :=
  ∀ (n : Nat) (run : Nat → State),
    (∀ k < n, step (run k) = .next (run (k + 1)) ∧ ∀ x, decode (run k).sample.fetch ≠ some (.ldDtVx x)) →
    (run n).dt.toNat = (run 0).dt.toNat - n

/-- A fetch with PC + 1 above 0xFFF is fatal, with the first of PC and PC + 1 outside the memory.
The spec's own inference in R57, from R51 and R54. -/
def Obligations.FetchOutOfRangeIsFatal : Prop :=
  ∀ s : State, 0xFFF < s.pc.toNat + 1 →
    step s = .fault (.fetch s.pc (if 0xFFF < s.pc.toNat then s.pc.toNat else s.pc.toNat + 1))

/-- A fatal step leaves all the state but the key sample, and reports itself on `status` with beep 0.
Spec decision D7. -/
def Obligations.FatalStepLeavesStateAsItWas : Prop :=
  ∀ (s : State) (f : Fault), step s = .fault f →
    let t := stateAfter s
    (∀ r, t.reg r = s.reg r) ∧ t.i = s.i ∧ t.pc = s.pc ∧ t.sp = s.sp ∧ t.stack = s.stack ∧ t.dt = s.dt ∧ t.st = s.st ∧
    t.fb = s.fb ∧ (∀ a, t.mem.read a = s.mem.read a) ∧ t.status = .fatal f ∧ t.beep = false

/-- A word that matches no row gives `Unimplemented(w)`, leaves all the state but the key sample, and is reported again by
the next step.
Spec decision D6. -/
def Obligations.UnimplementedWordChangesNothing : Prop :=
  ∀ s : State, s.pc.toNat + 1 ≤ 0xFFF → decode s.fetch = none →
    let t := stateAfter s
    step s = .refused (.unimplemented s.fetch) ∧ step t = .refused (.unimplemented s.fetch) ∧
    (∀ r, t.reg r = s.reg r) ∧ t.i = s.i ∧ t.pc = s.pc ∧ t.sp = s.sp ∧ t.stack = s.stack ∧ t.dt = s.dt ∧ t.st = s.st ∧
    t.fb = s.fb ∧ (∀ a, t.mem.read a = s.mem.read a) ∧ t.status = .unimplemented s.fetch ∧ t.beep = false

/-- Once a step is fatal or unimplemented, every later step from the state it leaves has the same outcome, whatever
keys and random bytes the host supplies: the run changes nothing that decides it.
The spec's own inference in R96. -/
def Obligations.ErrorsPersistOverLaterSteps : Prop :=
  ∀ (s : State) (n : Nat) (supplied : Nat → List StepInput),
    (∀ f, step s = .fault f → step (laterState supplied s n) = .fault f) ∧
    (∀ w, step s = .refused (.unimplemented w) → step (laterState supplied s n) = .refused (.unimplemented w))

/-- A step is fatal for exactly the causes of R181, each with the payload of R182, w being the word fetched; and it is
unimplemented for exactly the words that decode to nothing, with that word.
Spec decisions D8, D23. -/
def Obligations.FatalCausesAreExactlyTheListed : Prop :=
  (∀ (s : State) (w : Word), step s = .refused (.unimplemented w) ↔
    s.pc.toNat + 1 ≤ 0xFFF ∧ w = s.fetch ∧ decode w = none) ∧
  ∀ (s : State) (f : Fault), step s = .fault f ↔
    (0xFFF < s.pc.toNat + 1 ∧ f = .fetch s.pc (if 0xFFF < s.pc.toNat then s.pc.toNat else s.pc.toNat + 1)) ∨
    (s.pc.toNat + 1 ≤ 0xFFF ∧ ∃ w i, w = s.fetch ∧ decode w = some i ∧
      match i with
      | .ret => s.sp.val = 0 ∧ f = .stackUnderflow s.pc (some w) 0
      | .call _ => s.sp.val = 16 ∧ f = .stackOverflow s.pc (some w) 16
      | .drw _ _ n => 1 ≤ n.toNat ∧ 0xFFF < s.i.toNat + n.toNat - 1 ∧ f = .data s.pc (some w) (max s.i.toNat 0x1000)
      | .ldB _ => 0xFFF < s.i.toNat + 2 ∧ f = .data s.pc (some w) (max s.i.toNat 0x1000)
      | .storeRegs x => 0xFFF < s.i.toNat + x.toNat ∧ f = .data s.pc (some w) (max s.i.toNat 0x1000)
      | .loadRegs x => 0xFFF < s.i.toNat + x.toNat ∧ f = .data s.pc (some w) (max s.i.toNat 0x1000)
      | .skp x => 16 ≤ (s.reg x).toNat ∧ f = .keyIndex s.pc (some w) (s.reg x)
      | .sknp x => 16 ≤ (s.reg x).toNat ∧ f = .keyIndex s.pc (some w) (s.reg x)
      | _ => False)

/-- No instruction is refused: each answers a next state or a fatal error. -/
def Obligations.NoInstructionIsRefused : Prop :=
  ∀ (i : Instr) (s : State), (∃ t, exec i s = .next t) ∨ (∃ f, exec i s = .fault f)

/-- An instruction that completes writes only the state its rule names.
The V columns are the spec's own inference in R22. -/
def Obligations.InstructionsWriteOnlyTheirFootprint : Prop :=
  ∀ (i : Instr) (s t : State), exec i s = .next t → Keeps (footprint s i) s t

/-- Over a step, SP goes up by 1 only under a 2NNN and down by 1 only under a 00EE, and moves in no other way. -/
def Obligations.OnlyCallAndReturnMoveSP : Prop :=
  ∀ s t : State, step s = .next t →
    t.sp = s.sp ∨
    (t.sp.val = s.sp.val + 1 ∧ ∃ nnn, decode s.sample.fetch = some (.call nnn)) ∨
    (t.sp.val + 1 = s.sp.val ∧ decode s.sample.fetch = some .ret)

/-- `rand_in` affects only CXNN and the keys only EX9E, EXA1 and FX0A: any other instruction does the same whatever their
values, and hands them on.
The spec's own inference in R97. -/
def Obligations.InputsSeenOnlyByTheirInstructions : Prop :=
  ∀ (i : Instr) (s : State),
    (∀ b : Byte, (∀ x nn, i ≠ .rnd x nn) →
      (∀ t, exec i s = .next t → exec i { s with randIn := b } = .next { t with randIn := b }) ∧
      (∀ f, exec i s = .fault f → exec i { s with randIn := b } = .fault f)) ∧
    (∀ ks : BitVec 16, (∀ x, i ≠ .skp x ∧ i ≠ .sknp x ∧ i ≠ .ldVxK x) →
      (∀ t, exec i s = .next t → exec i { s with keys := ks } = .next { t with keys := ks }) ∧
      (∀ f, exec i s = .fault f → exec i { s with keys := ks } = .fault f))

/-- A store is seen by a later fetch: after FX55, the fetch at any address of the stored range reads the stored bytes.
The spec's own inference in R64. -/
def Obligations.LaterFetchSeesStoredRegisters : Prop :=
  ∀ (x k : Nibble) (l : Nibble) (s t u : State), s.mem.wf → exec (.storeRegs x) s = .next t →
    l.toNat = k.toNat + 1 → l.toNat ≤ x.toNat → u.mem = t.mem → u.pc.toNat = s.i.toNat + k.toNat →
    u.fetch.toNat = (s.reg k).toNat * 256 + (s.reg l).toNat

/-! ### The invariant -/

/-- Every step keeps the invariant, whichever its outcome.
The bounds are the spec's own inference in R24 and R100; the canonical form is the model's choice, log entry 9. -/
def Obligations.EveryStepKeepsInvariant : Prop :=
  ∀ s : State, Inv s → (∀ t, step s = .next t → Inv t) ∧ Inv (stateAfter s)

/-- The invariant holds right after reset.
The canonical form is the model's choice, log entry 9. -/
def Obligations.ResetMeetsInvariant : Prop := Inv State.reset

/-- The host's load, accepted or rejected, and its reset keep the invariant.
Both as functions between steps are the model's choice, log entry 6. -/
def Obligations.LoadAndResetKeepInvariant : Prop :=
  ∀ (font : Font) (image : List Byte) (s : State), Inv s → Inv (s.load font image).2 ∧ Inv s.hostReset

/-- Canonical memories with equal bytes are equal data.
The canonical form is the model's choice, log entry 9. -/
def Obligations.EqualBytesMeanEqualMemory : Prop :=
  ∀ m m' : Memory, m.wf → m'.wf → (∀ a, m.read a = m'.read a) → m = m'

/-! ### Reset, load, boot (70_reset_and_hazards.md) -/

/-- Reset from any state: the values of R36, and no font in memory.
Spec decision D13 for V, I, the stack, the memory and the outputs. -/
def Obligations.ResetSetsEveryElement : Prop :=
  ∀ s : State, let t := s.hostReset
    (∀ r, t.reg r = 0#8) ∧ t.i.toNat = 0 ∧ t.pc.toNat = 0x200 ∧ t.sp.val = 0 ∧ (∀ k : Fin 16, t.stack[k] = 0#16) ∧
    t.dt.toNat = 0 ∧ t.st.toNat = 0 ∧ (∀ cx cy, getCell t.fb cx cy = false) ∧ (∀ k, t.keyDown k = false) ∧
    (∀ a, t.mem.read a = 0#8) ∧ t.status = .ok ∧ t.beep = false

/-- Load: an image of more than 3584 bytes is rejected with no state changed; any other stands at 0x200 upward with FONT
at 0x000 to 0x04F, and PC, SP, the timers, the framebuffer and the key state take their start values.
Spec decision D14 for the rejected load. -/
def Obligations.LoadPlacesImageAndFont : Prop :=
  ∀ (font : Font) (image : List Byte) (s : State), s.mem.wf →
    (3584 < image.length → s.load font image = (.tooLarge, s)) ∧
    (image.length ≤ 3584 → ∃ t, s.load font image = (.loaded, t) ∧
      (∀ (k : Nat) (h : k < image.length), t.mem.read (0x200 + k) = image[k]) ∧
      (∀ (k : Nat) (h : k < 80), t.mem.read k = font[k]) ∧
      t.pc.toNat = 0x200 ∧ t.sp.val = 0 ∧ t.dt.toNat = 0 ∧ t.st.toNat = 0 ∧
      (∀ cx cy, getCell t.fb cx cy = false) ∧ (∀ k, t.keyDown k = false))

/-- Load writes only what R201 names: V, I, the stack slots and every other byte keep their values.
Spec decision D14. -/
def Obligations.LoadKeepsWhatItDoesNotName : Prop :=
  ∀ (font : Font) (image : List Byte) (s t : State), s.load font image = (.loaded, t) →
    (∀ r, t.reg r = s.reg r) ∧ t.i = s.i ∧ t.stack = s.stack ∧
    (∀ a, 0x050 ≤ a → a < 0x200 → t.mem.read a = s.mem.read a) ∧
    (∀ a, 0x200 + image.length ≤ a → t.mem.read a = s.mem.read a)

/-- After reset with no load, every step is `Unimplemented(0x0000)` with PC at 0x200, whatever the inputs.
The spec's own inference in R204. -/
def Obligations.UnloadedCoreReportsUnimplementedZero : Prop :=
  ∀ (n : Nat) (supplied : Nat → List StepInput),
    step (laterState supplied State.reset n) = .refused (.unimplemented 0x0000#16) ∧
    (laterState supplied State.reset n).pc = 0x200#16

/-- The step behind it, from every state: where PC is 0x200 and the bytes at 0x200 and 0x201 are 0, the step is
`Unimplemented(0x0000)` and the state it leaves has that PC and those bytes.
The spec's own inference in R204; as a refusal, log entry 4. -/
def Obligations.ZeroWordAtStartStaysUnimplemented : Prop :=
  ∀ s : State, s.pc.toNat = 0x200 → s.mem.read 0x200 = 0#8 → s.mem.read 0x201 = 0#8 →
    step s = .refused (.unimplemented 0x0000#16) ∧
    (stateAfter s).pc.toNat = 0x200 ∧ (stateAfter s).mem.read 0x200 = 0#8 ∧ (stateAfter s).mem.read 0x201 = 0#8

/-! ### Jumps, calls and returns (41_flow.md) -/

/-- 00EE: underflow at SP = 0; else SP goes down by 1 and PC is the popped address + 2; the slot keeps its value.
Spec decision D11. -/
def Obligations.RetPopsAndGoesPastTheCall : Prop :=
  decode 0x00EE#16 = some .ret ∧
  ∀ s : State,
    (s.sp.val = 0 → exec .ret s = .fault (.stackUnderflow s.pc none 0)) ∧
    (0 < s.sp.val → ∃ t, exec .ret s = .next t ∧ t.sp.val + 1 = s.sp.val ∧
      (∀ k : Fin 16, k.val + 1 = s.sp.val → t.pc.toNat = ((s.stack[k]).toNat + 2) % 2 ^ 16) ∧
      t.stack = s.stack ∧ Keeps { calls := true } s t)

/-- 1NNN: PC is NNN. -/
def Obligations.JpSetsPcToAddress : Prop :=
  ∀ (nnn : Addr12) (s : State), decode (0x1#4 ++ nnn) = some (.jp nnn) ∧
    ∃ t, exec (.jp nnn) s = .next t ∧ t.pc.toNat = nnn.toNat ∧ Keeps {} s t

/-- 2NNN: overflow at SP = 16; else the address of the 2NNN is pushed and PC is NNN.
Spec decision D11. -/
def Obligations.CallPushesItsOwnAddress : Prop :=
  ∀ (nnn : Addr12) (s : State), decode (0x2#4 ++ nnn) = some (.call nnn) ∧
    (s.sp.val = 16 → exec (.call nnn) s = .fault (.stackOverflow s.pc none 16)) ∧
    (s.sp.val < 16 → ∃ t, exec (.call nnn) s = .next t ∧ t.sp.val = s.sp.val + 1 ∧ t.pc.toNat = nnn.toNat ∧
      (∀ k : Fin 16, t.stack[k] = if k.val = s.sp.val then s.pc else s.stack[k]) ∧ Keeps { calls := true } s t)

/-- BNNN: PC is NNN + V0, not wrapped at 12 bits; from a target at 0xFFF or above the next step's fetch is fatal.
Spec decision D9. -/
def Obligations.JpV0AddsV0 : Prop :=
  ∀ (nnn : Addr12) (s : State), decode (0xB#4 ++ nnn) = some (.jpV0 nnn) ∧
    ∃ t, exec (.jpV0 nnn) s = .next t ∧ t.pc.toNat = nnn.toNat + (s.reg 0#4).toNat ∧ Keeps {} s t ∧
      (0xFFF ≤ t.pc.toNat → step t.tick = .fault (.fetch t.pc (max t.pc.toNat 0x1000)))

/-- A return right after a call resumes behind the call with the depth as before. -/
def Obligations.ReturnAfterCallResumesBehindIt : Prop :=
  ∀ (nnn : Addr12) (s t : State), exec (.call nnn) s = .next t →
    ∃ u, exec .ret t = .next u ∧ u.sp = s.sp ∧ PcPlus 2 s u

/-! ### Skips on registers (42_skip.md) -/

/-- 3XNN and 4XNN: PC + 4 where the condition on VX and NN holds, else PC + 2; nothing else is written. -/
def Obligations.ImmediateSkipsFollowTheirCondition : Prop :=
  ∀ (x : Nibble) (nn : Byte) (s : State),
    decode (0x3#4 ++ x ++ nn) = some (.seImm x nn) ∧ decode (0x4#4 ++ x ++ nn) = some (.sneImm x nn) ∧
    (∃ t, exec (.seImm x nn) s = .next t ∧ PcPlus (if s.reg x = nn then 4 else 2) s t ∧ Keeps {} s t) ∧
    (∃ t, exec (.sneImm x nn) s = .next t ∧ PcPlus (if s.reg x ≠ nn then 4 else 2) s t ∧ Keeps {} s t)

/-- 5XY0 and 9XY0: PC + 4 where the condition on VX and VY holds, else PC + 2; nothing else is written; and only N = 0 selects them.
Spec decision D18 for N. -/
def Obligations.RegisterSkipsFollowTheirCondition : Prop :=
  ∀ (x y n : Nibble) (s : State),
    decode (0x5#4 ++ x ++ y ++ n) = (if n = 0#4 then some (.seReg x y) else none) ∧
    decode (0x9#4 ++ x ++ y ++ n) = (if n = 0#4 then some (.sneReg x y) else none) ∧
    (∃ t, exec (.seReg x y) s = .next t ∧ PcPlus (if s.reg x = s.reg y then 4 else 2) s t ∧ Keeps {} s t) ∧
    (∃ t, exec (.sneReg x y) s = .next t ∧ PcPlus (if s.reg x ≠ s.reg y then 4 else 2) s t ∧ Keeps {} s t)

/-! ### Register loads and arithmetic (43_alu.md) -/

/-- 6XNN: VX is NN. -/
def Obligations.LdImmLoadsTheByte : Prop :=
  ∀ (x : Nibble) (nn : Byte) (s : State), decode (0x6#4 ++ x ++ nn) = some (.ldImm x nn) ∧
    ∃ t, exec (.ldImm x nn) s = .next t ∧ t.reg x = nn ∧ PcPlus 2 s t ∧ Keeps { regs := fun r => r = x } s t

/-- 7XNN: VX is VX + NN modulo 256, and no flag is written. -/
def Obligations.AddImmWrapsWithoutFlag : Prop :=
  ∀ (x : Nibble) (nn : Byte) (s : State), decode (0x7#4 ++ x ++ nn) = some (.addImm x nn) ∧
    ∃ t, exec (.addImm x nn) s = .next t ∧ (t.reg x).toNat = ((s.reg x).toNat + nn.toNat) % 256 ∧ PcPlus 2 s t ∧
      Keeps { regs := fun r => r = x } s t

/-- 8XY0: VX is VY. -/
def Obligations.LdRegCopiesRegister : Prop :=
  ∀ (x y : Nibble) (s : State), decode (0x8#4 ++ x ++ y ++ 0x0#4) = some (.ldReg x y) ∧
    ∃ t, exec (.ldReg x y) s = .next t ∧ t.reg x = s.reg y ∧ PcPlus 2 s t ∧ Keeps { regs := fun r => r = x } s t

/-- 8XY1, 8XY2, 8XY3: VX is the OR, AND, XOR of VX and VY bit by bit, and no flag is written. -/
def Obligations.LogicRowsWorkBitByBit : Prop :=
  ∀ (x y : Nibble) (s : State),
    decode (0x8#4 ++ x ++ y ++ 0x1#4) = some (.orReg x y) ∧ decode (0x8#4 ++ x ++ y ++ 0x2#4) = some (.andReg x y) ∧
    decode (0x8#4 ++ x ++ y ++ 0x3#4) = some (.xorReg x y) ∧
    (∃ t, exec (.orReg x y) s = .next t ∧
      (∀ k, (t.reg x).getLsbD k = ((s.reg x).getLsbD k || (s.reg y).getLsbD k)) ∧
      PcPlus 2 s t ∧ Keeps { regs := fun r => r = x } s t) ∧
    (∃ t, exec (.andReg x y) s = .next t ∧
      (∀ k, (t.reg x).getLsbD k = ((s.reg x).getLsbD k && (s.reg y).getLsbD k)) ∧
      PcPlus 2 s t ∧ Keeps { regs := fun r => r = x } s t) ∧
    (∃ t, exec (.xorReg x y) s = .next t ∧
      (∀ k, (t.reg x).getLsbD k = ((s.reg x).getLsbD k ^^ (s.reg y).getLsbD k)) ∧
      PcPlus 2 s t ∧ Keeps { regs := fun r => r = x } s t)

/-- 8XY4: VF is the carry c, then VX is VX + VY modulo 256 from the registers as that write left them.
Spec decision D2 where X or Y is F. -/
def Obligations.AddRegWritesCarryThenSum : Prop :=
  ∀ (x y : Nibble) (s : State), decode (0x8#4 ++ x ++ y ++ 0x4#4) = some (.addReg x y) ∧
    ∃ (t : State) (c : Nat), c = (if (s.reg x).toNat + (s.reg y).toNat > 255 then 1 else 0) ∧
      exec (.addReg x y) s = .next t ∧
      (t.reg x).toNat =
        ((if x = vf then c else (s.reg x).toNat) + (if y = vf then c else (s.reg y).toNat)) % 256 ∧
      (x ≠ vf → (t.reg vf).toNat = c) ∧
      PcPlus 2 s t ∧ Keeps { regs := fun r => r = x ∨ r = vf } s t

/-- 8XY5: VF is the NOT-borrow f of VX - VY, then VX is VX - VY modulo 256 from the registers as that write left them.
Spec decision D2 where X or Y is F. -/
def Obligations.SubWritesNotBorrowThenDifference : Prop :=
  ∀ (x y : Nibble) (s : State), decode (0x8#4 ++ x ++ y ++ 0x5#4) = some (.subReg x y) ∧
    ∃ (t : State) (f : Nat), f = (if (s.reg y).toNat > (s.reg x).toNat then 0 else 1) ∧
      exec (.subReg x y) s = .next t ∧
      ((t.reg x).toNat : Int) =
        (((if x = vf then f else (s.reg x).toNat : Nat) : Int) - ((if y = vf then f else (s.reg y).toNat : Nat) : Int)) % 256 ∧
      (x ≠ vf → (t.reg vf).toNat = f) ∧
      PcPlus 2 s t ∧ Keeps { regs := fun r => r = x ∨ r = vf } s t

/-- 8XY6 with any Y: VF is bit 0 of VX, then VX is shifted right by one from the registers as that write left them.
Spec decision D2 where X is F. -/
def Obligations.ShrMovesLowBitToVF : Prop :=
  ∀ (x y : Nibble) (s : State), decode (0x8#4 ++ x ++ y ++ 0x6#4) = some (.shr x y) ∧
    ∃ (t : State) (f : Nat), f = (s.reg x).toNat % 2 ∧ exec (.shr x y) s = .next t ∧
      (t.reg x).toNat = (if x = vf then f else (s.reg x).toNat) / 2 ∧
      (x ≠ vf → (t.reg vf).toNat = f) ∧
      PcPlus 2 s t ∧ Keeps { regs := fun r => r = x ∨ r = vf } s t

/-- 8XY7: VF is the NOT-borrow f of VY - VX, then VX is VY - VX modulo 256 from the registers as that write left them.
Spec decision D2 where X or Y is F. -/
def Obligations.SubnWritesNotBorrowThenDifference : Prop :=
  ∀ (x y : Nibble) (s : State), decode (0x8#4 ++ x ++ y ++ 0x7#4) = some (.subnReg x y) ∧
    ∃ (t : State) (f : Nat), f = (if (s.reg x).toNat > (s.reg y).toNat then 0 else 1) ∧
      exec (.subnReg x y) s = .next t ∧
      ((t.reg x).toNat : Int) =
        (((if y = vf then f else (s.reg y).toNat : Nat) : Int) - ((if x = vf then f else (s.reg x).toNat : Nat) : Int)) % 256 ∧
      (x ≠ vf → (t.reg vf).toNat = f) ∧
      PcPlus 2 s t ∧ Keeps { regs := fun r => r = x ∨ r = vf } s t

/-- 8XYE with any Y: VF is bit 7 of VX, then VX is shifted left by one modulo 256 from the registers as that write left them.
Spec decision D2 where X is F. -/
def Obligations.ShlMovesHighBitToVF : Prop :=
  ∀ (x y : Nibble) (s : State), decode (0x8#4 ++ x ++ y ++ 0xE#4) = some (.shl x y) ∧
    ∃ (t : State) (f : Nat), f = (s.reg x).toNat / 128 ∧ exec (.shl x y) s = .next t ∧
      (t.reg x).toNat = (if x = vf then f else (s.reg x).toNat) * 2 % 256 ∧
      (x ≠ vf → (t.reg vf).toNat = f) ∧
      PcPlus 2 s t ∧ Keeps { regs := fun r => r = x ∨ r = vf } s t

/-- CXNN: VX is the step's rand_in ANDed with NN, for every rand_in.
Spec decision D16. -/
def Obligations.RndMasksTheRandomByte : Prop :=
  ∀ (x : Nibble) (nn : Byte) (s : State), decode (0xC#4 ++ x ++ nn) = some (.rnd x nn) ∧
    ∃ t, exec (.rnd x nn) s = .next t ∧ (∀ k, (t.reg x).getLsbD k = (s.randIn.getLsbD k && nn.getLsbD k)) ∧
      PcPlus 2 s t ∧ Keeps { regs := fun r => r = x } s t

/-! ### Index register and memory (44_index_memory.md) -/

/-- ANNN: I is NNN. -/
def Obligations.LdILoadsTheAddress : Prop :=
  ∀ (nnn : Addr12) (s : State), decode (0xA#4 ++ nnn) = some (.ldI nnn) ∧
    ∃ t, exec (.ldI nnn) s = .next t ∧ t.i.toNat = nnn.toNat ∧ PcPlus 2 s t ∧ Keeps { index := true } s t

/-- FX1E: VF is 1 where I + VX exceeds 0xFFF, else 0; then I is I + VX modulo 2^16 from VX as that write left it.
Spec decisions D2, D9, D10. -/
def Obligations.AddIWritesOverflowThenSum : Prop :=
  ∀ (x : Nibble) (s : State), decode (0xF#4 ++ x ++ 0x1E#8) = some (.addI x) ∧
    ∃ (t : State) (f : Nat), f = (if s.i.toNat + (s.reg x).toNat > 0xFFF then 1 else 0) ∧
      exec (.addI x) s = .next t ∧ (t.reg vf).toNat = f ∧
      t.i.toNat = (s.i.toNat + if x = vf then f else (s.reg x).toNat) % 2 ^ 16 ∧
      PcPlus 2 s t ∧ Keeps { regs := fun r => r = vf, index := true } s t

/-- FX29: I is VX * 5 over all 8 bits of VX.
Spec decision D9. -/
def Obligations.LdFPointsAtTheGlyph : Prop :=
  ∀ (x : Nibble) (s : State), decode (0xF#4 ++ x ++ 0x29#8) = some (.ldF x) ∧
    ∃ t, exec (.ldF x) s = .next t ∧ t.i.toNat = (s.reg x).toNat * 5 ∧ PcPlus 2 s t ∧ Keeps { index := true } s t

/-- FX33: fatal where I + 2 exceeds 0xFFF; else the three decimal digits of VX stand at I, I + 1 and I + 2.
Spec decision D3 for PC. -/
def Obligations.LdBStoresDecimalDigits : Prop :=
  ∀ (x : Nibble) (s : State), s.mem.wf → decode (0xF#4 ++ x ++ 0x33#8) = some (.ldB x) ∧
    (s.i.toNat + 2 > 0xFFF → exec (.ldB x) s = .fault (.data s.pc none (max s.i.toNat 0x1000))) ∧
    (s.i.toNat + 2 ≤ 0xFFF → ∃ t, exec (.ldB x) s = .next t ∧
      (t.mem.read s.dataAddr).toNat = (s.reg x).toNat / 100 ∧
      (t.mem.read (s.dataAddr + 1)).toNat = (s.reg x).toNat / 10 % 10 ∧
      (t.mem.read (s.dataAddr + 2)).toNat = (s.reg x).toNat % 10 ∧
      PcPlus 2 s t ∧ Keeps { bytes := fun a => s.dataAddr ≤ a ∧ a < s.dataAddr + 3 } s t)

/-- FX55: fatal where I + X exceeds 0xFFF; else V0 to VX stand at I to I + X and I is I + X + 1 modulo 2^16.
Spec decisions D7, D9. -/
def Obligations.StoreRegsStoresAndAdvancesI : Prop :=
  ∀ (x : Nibble) (s : State), s.mem.wf → decode (0xF#4 ++ x ++ 0x55#8) = some (.storeRegs x) ∧
    (s.i.toNat + x.toNat > 0xFFF → exec (.storeRegs x) s = .fault (.data s.pc none (max s.i.toNat 0x1000))) ∧
    (s.i.toNat + x.toNat ≤ 0xFFF → ∃ t, exec (.storeRegs x) s = .next t ∧
      (∀ k : Nibble, k.toNat ≤ x.toNat → t.mem.read (s.dataAddr + k.toNat) = s.reg k) ∧
      t.i.toNat = (s.i.toNat + x.toNat + 1) % 2 ^ 16 ∧ PcPlus 2 s t ∧
      Keeps { index := true, bytes := fun a => s.dataAddr ≤ a ∧ a < s.dataAddr + (x.toNat + 1) } s t)

/-- FX65: fatal where I + X exceeds 0xFFF; else V0 to VX are the bytes at I to I + X and I is I + X + 1 modulo 2^16.
Spec decisions D7, D9. -/
def Obligations.LoadRegsLoadsAndAdvancesI : Prop :=
  ∀ (x : Nibble) (s : State), decode (0xF#4 ++ x ++ 0x65#8) = some (.loadRegs x) ∧
    (s.i.toNat + x.toNat > 0xFFF → exec (.loadRegs x) s = .fault (.data s.pc none (max s.i.toNat 0x1000))) ∧
    (s.i.toNat + x.toNat ≤ 0xFFF → ∃ t, exec (.loadRegs x) s = .next t ∧
      (∀ k : Nibble, k.toNat ≤ x.toNat → t.reg k = s.mem.read (s.dataAddr + k.toNat)) ∧
      t.i.toNat = (s.i.toNat + x.toNat + 1) % 2 ^ 16 ∧ PcPlus 2 s t ∧
      Keeps { regs := fun r => r.toNat ≤ x.toNat, index := true } s t)

/-- FX55 from an address, then FX65 with the same X from that address, gives the stored registers back, and both leave I
X + 1 past it. -/
def Obligations.StoreThenLoadGivesRegistersBack : Prop :=
  ∀ (x : Nibble) (s t u : State), s.mem.wf → exec (.storeRegs x) s = .next t → u.mem = t.mem → u.i = s.i →
    ∃ v, exec (.loadRegs x) u = .next v ∧ (∀ k : Nibble, k.toNat ≤ x.toNat → v.reg k = s.reg k) ∧ v.i = t.i

/-! ### Framebuffer (45_display.md) -/

/-- 00E0: every cell is off. -/
def Obligations.ClsTurnsEveryCellOff : Prop :=
  decode 0x00E0#16 = some .cls ∧
  ∀ s : State, ∃ t, exec .cls s = .next t ∧ (∀ cx cy, cx < 64 → cy < 32 → getCell t.fb cx cy = false) ∧
    PcPlus 2 s t ∧ Keeps { screen := true } s t

/-- DXYN: fatal where N >= 1 and I + N - 1 exceeds 0xFFF; else every cell of the grid is XORed with the sprite's bit on it,
cells past the edge are not drawn, and VF, written last, says whether a cell that was on lay under a set bit.
R162 to R164, with spec decisions D4, D5; R162's corner case on a second draw is `SecondDrawRestoresTheScreen`, log entry 12. -/
def Obligations.DrwXorsClippedSpriteAndSetsCollision : Prop :=
  ∀ (x y n : Nibble) (s : State), decode (0xD#4 ++ x ++ y ++ n) = some (.drw x y n) ∧
    (1 ≤ n.toNat → s.i.toNat + n.toNat - 1 > 0xFFF →
      exec (.drw x y n) s = .fault (.data s.pc none (max s.i.toNat 0x1000))) ∧
    (n.toNat = 0 ∨ s.i.toNat + n.toNat - 1 ≤ 0xFFF → ∃ t, exec (.drw x y n) s = .next t ∧
      (∀ cx cy, cx < 64 → cy < 32 →
        (getCell t.fb cx cy = true ↔ ¬ (getCell s.fb cx cy = true ↔ s.spriteBit x y n cx cy))) ∧
      ((∃ cx cy, cx < 64 ∧ cy < 32 ∧ getCell s.fb cx cy = true ∧ s.spriteBit x y n cx cy) → t.reg vf = 1#8) ∧
      ((¬ ∃ cx cy, cx < 64 ∧ cy < 32 ∧ getCell s.fb cx cy = true ∧ s.spriteBit x y n cx cy) → t.reg vf = 0#8) ∧
      PcPlus 2 s t ∧ Keeps { regs := fun r => r = vf, screen := true } s t)

/-- The same sprite drawn a second time at the same place restores the framebuffer, and VF is 1 if a cell under a set bit
was off before the first draw.
The condition on the cell is the model's reading of R162's corner case, log entry 12. -/
def Obligations.SecondDrawRestoresTheScreen : Prop :=
  ∀ (x y n : Nibble) (s t u : State), exec (.drw x y n) s = .next t →
    u.fb = t.fb → u.mem = s.mem → u.i = s.i → u.reg x = s.reg x → u.reg y = s.reg y →
    ∃ v, exec (.drw x y n) u = .next v ∧ v.fb = s.fb ∧
      ((∃ cx cy, cx < 64 ∧ cy < 32 ∧ getCell s.fb cx cy = false ∧ s.spriteBit x y n cx cy) → v.reg vf = 1#8)

/-! ### Keys and timers (46_timer_key.md) -/

/-- EX9E and EXA1: fatal where VX >= 16; else PC + 4 where the sampled key VX is, or is not, pressed, else PC + 2.
Spec decision D8 for VX >= 16. -/
def Obligations.KeySkipsFollowTheSampledKey : Prop :=
  ∀ (x : Nibble) (s : State),
    decode (0xE#4 ++ x ++ 0x9E#8) = some (.skp x) ∧ decode (0xE#4 ++ x ++ 0xA1#8) = some (.sknp x) ∧
    (16 ≤ (s.reg x).toNat →
      exec (.skp x) s = .fault (.keyIndex s.pc none (s.reg x)) ∧ exec (.sknp x) s = .fault (.keyIndex s.pc none (s.reg x))) ∧
    ((s.reg x).toNat < 16 →
      (∃ t, exec (.skp x) s = .next t ∧
        PcPlus (if s.keys.getLsbD (s.reg x).toNat = true then 4 else 2) s t ∧ Keeps {} s t) ∧
      (∃ t, exec (.sknp x) s = .next t ∧
        PcPlus (if s.keys.getLsbD (s.reg x).toNat = true then 2 else 4) s t ∧ Keeps {} s t))

/-- FX07: VX is DT before the step's tick. -/
def Obligations.LdVxDtReadsTheDelayTimer : Prop :=
  ∀ (x : Nibble) (s : State), decode (0xF#4 ++ x ++ 0x07#8) = some (.ldVxDt x) ∧
    ∃ t, exec (.ldVxDt x) s = .next t ∧ t.reg x = s.dt ∧ PcPlus 2 s t ∧ Keeps { regs := fun r => r = x } s t

/-- FX0A: the lowest pressed key goes to VX and PC + 2; with no key pressed the outcome is `Waiting`, PC and all other
state are unchanged, and the tick that ends the step leaves the same word to fetch next. -/
def Obligations.LdVxKTakesLowestKeyOrWaits : Prop :=
  ∀ (x : Nibble) (s : State), decode (0xF#4 ++ x ++ 0x0A#8) = some (.ldVxK x) ∧
    ∃ t, exec (.ldVxK x) s = .next t ∧
      (∀ k < 16, s.keyDown k = true → (∀ j < k, s.keyDown j = false) →
        (t.reg x).toNat = k ∧ PcPlus 2 s t ∧ Keeps { regs := fun r => r = x } s t) ∧
      ((∀ k < 16, s.keyDown k = false) → t.status = .waiting ∧ t.pc = s.pc ∧ Keeps { status := true } s t ∧
        t.tick.dt.toNat = s.dt.toNat - 1 ∧ t.tick.st.toNat = s.st.toNat - 1 ∧ t.tick.pc = s.pc ∧ t.tick.fetch = s.fetch)

/-- FX15 and FX18: DT, ST is VX; the tick that ends the same step takes the new value down by 1 if it is nonzero, and
beeps iff the new ST is nonzero.
Spec decision D27. -/
def Obligations.TimerWritesCopyVX : Prop :=
  ∀ (x : Nibble) (s : State),
    decode (0xF#4 ++ x ++ 0x15#8) = some (.ldDtVx x) ∧ decode (0xF#4 ++ x ++ 0x18#8) = some (.ldStVx x) ∧
    (∃ t, exec (.ldDtVx x) s = .next t ∧ t.dt = s.reg x ∧ t.tick.dt.toNat = (s.reg x).toNat - 1 ∧
      PcPlus 2 s t ∧ Keeps { delay := true } s t) ∧
    (∃ t, exec (.ldStVx x) s = .next t ∧ t.st = s.reg x ∧ t.tick.st.toNat = (s.reg x).toNat - 1 ∧
      (t.tick.beep = true ↔ (s.reg x).toNat ≠ 0) ∧ PcPlus 2 s t ∧ Keeps { sound := true } s t)
end

