-- ==== Sys2Proof/Laws/Decode.lean ====
section
/-! SUPPORT. The fields of a word as numbers, a word put together from fields, the masks of the opcode map, the bytes of a word. -/

namespace Sys2Proof

/-! ### The fields of a word as numbers (30_encoding.md R71) -/

section Fields

variable (w : Word)

theorem fieldOp_toNat : (fieldOp w).toNat = w.toNat / 4096 := by
  have := w.isLt
  simp only [fieldOp, BitVec.extractLsb'_toNat, Nat.shiftRight_eq_div_pow]; omega

theorem fieldX_toNat : (fieldX w).toNat = w.toNat / 256 % 16 := by
  simp only [fieldX, BitVec.extractLsb'_toNat, Nat.shiftRight_eq_div_pow]

theorem fieldY_toNat : (fieldY w).toNat = w.toNat / 16 % 16 := by
  simp only [fieldY, BitVec.extractLsb'_toNat, Nat.shiftRight_eq_div_pow]

theorem fieldN_toNat : (fieldN w).toNat = w.toNat % 16 := by
  simp [fieldN, BitVec.extractLsb'_toNat]

theorem fieldNN_toNat : (fieldNN w).toNat = w.toNat % 256 := by
  simp [fieldNN, BitVec.extractLsb'_toNat]

theorem fieldNNN_toNat : (fieldNNN w).toNat = w.toNat % 4096 := by
  simp [fieldNNN, BitVec.extractLsb'_toNat]

end Fields

/-! ### A word put together from fields -/

theorem append_toNat {m n : Nat} (a : BitVec m) (b : BitVec n) : (a ++ b).toNat = a.toNat * 2 ^ n + b.toNat := by
  rw [BitVec.toNat_append, Nat.shiftLeft_eq, Nat.mul_comm, ← Nat.two_pow_add_eq_or_of_lt b.isLt]

section Words

variable (op x y n : Nibble) (nn : Byte) (nnn : Addr12)

theorem word_nnn_toNat : (op ++ nnn : Word).toNat = op.toNat * 4096 + nnn.toNat := append_toNat op nnn

theorem word_xnn_toNat : (op ++ x ++ nn : Word).toNat = op.toNat * 4096 + x.toNat * 256 + nn.toNat := by
  exact (append_toNat (op ++ x) nn).trans (by rw [append_toNat]; omega)

theorem word_xyn_toNat :
    (op ++ x ++ y ++ n : Word).toNat = op.toNat * 4096 + x.toNat * 256 + y.toNat * 16 + n.toNat := by
  exact (append_toNat (op ++ x ++ y) n).trans (by rw [append_toNat, append_toNat]; omega)

@[simp] theorem fieldOp_nnn : fieldOp (op ++ nnn) = op :=
  BitVec.eq_of_toNat_eq <| by have := word_nnn_toNat op nnn; rw [fieldOp_toNat, this]; omega

@[simp] theorem fieldNNN_nnn : fieldNNN (op ++ nnn) = nnn :=
  BitVec.eq_of_toNat_eq <| by have := word_nnn_toNat op nnn; rw [fieldNNN_toNat, this]; omega

@[simp] theorem fieldOp_xnn : fieldOp (op ++ x ++ nn) = op :=
  BitVec.eq_of_toNat_eq <| by have := word_xnn_toNat op x nn; rw [fieldOp_toNat, this]; omega

@[simp] theorem fieldX_xnn : fieldX (op ++ x ++ nn) = x :=
  BitVec.eq_of_toNat_eq <| by have := word_xnn_toNat op x nn; rw [fieldX_toNat, this]; omega

@[simp] theorem fieldNN_xnn : fieldNN (op ++ x ++ nn) = nn :=
  BitVec.eq_of_toNat_eq <| by have := word_xnn_toNat op x nn; rw [fieldNN_toNat, this]; omega

@[simp] theorem fieldOp_xyn : fieldOp (op ++ x ++ y ++ n) = op :=
  BitVec.eq_of_toNat_eq <| by have := word_xyn_toNat op x y n; rw [fieldOp_toNat, this]; omega

@[simp] theorem fieldX_xyn : fieldX (op ++ x ++ y ++ n) = x :=
  BitVec.eq_of_toNat_eq <| by have := word_xyn_toNat op x y n; rw [fieldX_toNat, this]; omega

@[simp] theorem fieldY_xyn : fieldY (op ++ x ++ y ++ n) = y :=
  BitVec.eq_of_toNat_eq <| by have := word_xyn_toNat op x y n; rw [fieldY_toNat, this]; omega

@[simp] theorem fieldN_xyn : fieldN (op ++ x ++ y ++ n) = n :=
  BitVec.eq_of_toNat_eq <| by have := word_xyn_toNat op x y n; rw [fieldN_toNat, this]; omega

/-- A word is its op and NNN fields. -/
theorem eq_word_nnn (w : Word) : w = fieldOp w ++ fieldNNN w :=
  BitVec.eq_of_toNat_eq <| by
    have := word_nnn_toNat (fieldOp w) (fieldNNN w)
    rw [fieldOp_toNat, fieldNNN_toNat] at this; rw [this]; omega

/-- A word is its op, X and NN fields. -/
theorem eq_word_xnn (w : Word) : w = fieldOp w ++ fieldX w ++ fieldNN w :=
  BitVec.eq_of_toNat_eq <| by
    have := word_xnn_toNat (fieldOp w) (fieldX w) (fieldNN w)
    rw [fieldOp_toNat, fieldX_toNat, fieldNN_toNat] at this; rw [this]; omega

/-- A word is its op, X, Y and N fields. -/
theorem eq_word_xyn (w : Word) : w = fieldOp w ++ fieldX w ++ fieldY w ++ fieldN w :=
  BitVec.eq_of_toNat_eq <| by
    have := word_xyn_toNat (fieldOp w) (fieldX w) (fieldY w) (fieldN w)
    rw [fieldOp_toNat, fieldX_toNat, fieldY_toNat, fieldN_toNat] at this; rw [this]; omega

end Words

theorem nibble_and_ones (a : Nibble) : a &&& 15#4 = a := BitVec.and_allOnes

theorem byte_and_ones (a : Byte) : a &&& 255#8 = a := BitVec.and_allOnes

/-! ### Masks of the opcode map (30_encoding.md R74), and words with equal fields -/

theorem and_maskOp (w : Word) : w &&& 0xF000#16 = fieldOp w ++ 0#12 := by
  conv_lhs => rw [eq_word_nnn w]
  have h : fieldOp w ++ fieldNNN w &&& (15#4 ++ 0#12) = fieldOp w ++ 0#12 := by
    rw [BitVec.and_append]; simp [nibble_and_ones]
  exact h

theorem and_maskOpN (w : Word) : w &&& 0xF00F#16 = fieldOp w ++ 0#4 ++ 0#4 ++ fieldN w := by
  conv_lhs => rw [eq_word_xyn w]
  have h : fieldOp w ++ fieldX w ++ fieldY w ++ fieldN w &&& (15#4 ++ 0#4 ++ 0#4 ++ 15#4) =
      fieldOp w ++ 0#4 ++ 0#4 ++ fieldN w := by
    rw [BitVec.and_append, BitVec.and_append, BitVec.and_append]; simp [nibble_and_ones]
  exact h

theorem and_maskOpNN (w : Word) : w &&& 0xF0FF#16 = fieldOp w ++ 0#4 ++ fieldNN w := by
  conv_lhs => rw [eq_word_xnn w]
  have h : fieldOp w ++ fieldX w ++ fieldNN w &&& (15#4 ++ 0#4 ++ 255#8) = fieldOp w ++ 0#4 ++ fieldNN w := by
    rw [BitVec.and_append, BitVec.and_append]; simp [nibble_and_ones, byte_and_ones]
  exact h

/-- A bit vector of a known number. -/
theorem eq_ofNat_of_toNat {n k : Nat} {a : BitVec n} (h : a.toNat = k) : a = BitVec.ofNat n k := by subst h; simp

/-! ### The bytes of a word (20_memory.md R54) -/

theorem wordOfBytes_toNat (hi lo : Byte) : (wordOfBytes hi lo).toNat = hi.toNat * 256 + lo.toNat := by
  have h : wordOfBytes hi lo = hi ++ lo := by
    ext i hi'
    simp only [wordOfBytes, BitVec.getElem_or, BitVec.getElem_shiftLeft, BitVec.getElem_setWidth]
    rw [show (hi ++ lo : Word)[i] = if i < 8 then lo.getLsbD i else hi.getLsbD (i - 8) from BitVec.getElem_append ..]
    split <;> simp_all
  rw [h]; exact append_toNat hi lo

@[simp] theorem wordOfBytes_bytes (w : Word) : wordOfBytes (hiByte w) (loByte w) = w :=
  BitVec.eq_of_toNat_eq <| by
    have := w.isLt
    rw [wordOfBytes_toNat]
    simp only [hiByte, loByte, BitVec.extractLsb'_toNat, Nat.shiftRight_eq_div_pow]; omega

end Sys2Proof
end

