-- ==== Sys2Proof/Laws/Memory.lean ====
section
/-! SUPPORT. Memory: a read after a write, the canonical form kept, equal memories equal data. -/

namespace Sys2Proof.Machine.Memory

@[simp] theorem read_nil (a : Nat) : Memory.read [] a = 0#8 := rfl

theorem read_cons (k : Nat) (b : Byte) (m : Memory) (a : Nat) :
    Memory.read ((k, b) :: m) a = if a = k then b else Memory.read m a := rfl

/-- An address below every listed one reads as the unlisted byte. -/
theorem read_of_lt {m : Memory} {a : Nat} (h : ∀ c ∈ m, a < c.1) : Memory.read m a = 0#8 := by
  induction m with
  | nil => rfl
  | cons c m ih =>
    have hc := h c (by simp)
    rw [read_cons, if_neg (by omega)]
    exact ih fun d hd => h d (by simp [hd])

theorem wf_nil : Memory.wf [] := ⟨.nil, fun _ h => nomatch h⟩

theorem wf_cons {k : Nat} {b : Byte} {m : Memory} :
    Memory.wf ((k, b) :: m) ↔ (∀ c ∈ m, k < c.1) ∧ k < 4096 ∧ b ≠ 0#8 ∧ Memory.wf m := by
  simp only [Memory.wf, List.pairwise_cons, List.mem_cons, forall_eq_or_imp]
  tauto

/-- Where insert puts entries: at the written address or where they stood. -/
theorem mem_insert {m : Memory} {a : Nat} {b : Byte} {c : Host.Cell} (h : c ∈ m.insert a b) : c.1 = a ∨ c ∈ m := by
  induction m with
  | nil => simp only [Memory.insert] at h; split at h <;> simp_all
  | cons d m ih =>
    obtain ⟨k, e⟩ := d
    simp only [Memory.insert] at h
    split_ifs at h with h1 h2 h3 h4
    · exact .inr h
    · rcases List.mem_cons.1 h with rfl | h <;> simp_all
    · exact .inr (List.mem_cons_of_mem _ h)
    · rcases List.mem_cons.1 h with rfl | h <;> simp_all
    · rcases List.mem_cons.1 h with rfl | h
      · simp
      · rcases ih h with h | h <;> simp_all

theorem wf_insert {m : Memory} {a : Nat} {b : Byte} (hm : m.wf) (ha : a < 4096) : (m.insert a b).wf := by
  induction m with
  | nil => simp only [Memory.insert]; split <;> simp_all [Memory.wf]
  | cons d m ih =>
    obtain ⟨k, e⟩ := d
    obtain ⟨h1, h2, h3, h4⟩ := wf_cons.1 hm
    simp only [Memory.insert]
    split_ifs with hk hb hk' hb
    · exact hm
    · refine wf_cons.2 ⟨fun c hc => ?_, ha, hb, hm⟩
      rcases List.mem_cons.1 hc with rfl | hc
      · exact hk
      · exact hk.trans (h1 c hc)
    · exact h4
    · subst hk'; exact wf_cons.2 ⟨h1, ha, hb, h4⟩
    · refine wf_cons.2 ⟨fun c hc => ?_, h2, h3, ih h4⟩
      rcases mem_insert hc with h | h
      · omega
      · exact h1 c h

theorem read_insert {m : Memory} (hm : m.wf) (a : Nat) (b : Byte) (a' : Nat) :
    (m.insert a b).read a' = if a' = a then b else m.read a' := by
  induction m with
  | nil => simp only [Memory.insert]; split <;> simp_all [Memory.read]
  | cons d m ih =>
    obtain ⟨k, e⟩ := d
    obtain ⟨h1, h2, h3, h4⟩ := wf_cons.1 hm
    have low : ∀ {x}, x ≤ k → Memory.read m x = 0#8 := fun hx =>
      read_of_lt fun c hc => lt_of_le_of_lt hx (h1 c hc)
    simp only [Memory.insert]
    split_ifs with hk hb hk' hb hn hn <;> (try simp only [read_cons, ih h4])
    all_goals (try split_ifs) <;> first | rfl | omega | (subst_vars; exact low (by omega))

/-- An insertion changes no other address, in any memory. -/
theorem read_insert_ne (m : Memory) {a a' : Nat} (b : Byte) (h : a' ≠ a) : (m.insert a b).read a' = m.read a' := by
  induction m with
  | nil => simp only [Memory.insert]; split <;> simp [read_cons, h]
  | cons d m ih =>
    obtain ⟨k, e⟩ := d
    simp only [Memory.insert]
    split_ifs with hk hb hk' hb <;> simp only [read_cons, ih, h, if_false]
    all_goals rw [if_neg (by omega)]

/-- A write keeps the canonical form. -/
theorem wf_write {m : Memory} (hm : m.wf) (a : Nat) (b : Byte) : (m.write a b).wf := by
  unfold Memory.write
  split
  · exact wf_insert hm ‹_›
  · exact hm

/-- A read after a write: the byte at the written address, what stood there elsewhere. -/
theorem read_write {m : Memory} (hm : m.wf) {a : Nat} (ha : a < 4096) (b : Byte) (a' : Nat) :
    (m.write a b).read a' = if a' = a then b else m.read a' := by
  simp only [Memory.write, Config.memSize, ha, if_true, read_insert hm]

/-- A write changes no other address, in any memory. -/
theorem read_write_ne (m : Memory) {a a' : Nat} (b : Byte) (h : a' ≠ a) : (m.write a b).read a' = m.read a' := by
  unfold Memory.write
  split
  · exact read_insert_ne m b h
  · rfl

/-- A store changes no address outside its range, in any memory. -/
theorem read_store_of_not_range (m : Memory) (a : Nat) (bs : List Byte) {a' : Nat} (h : ¬ (a ≤ a' ∧ a' < a + bs.length)) :
    (m.store a bs).read a' = m.read a' := by
  induction bs generalizing m a with
  | nil => rfl
  | cons b bs ih =>
    simp only [List.length_cons] at h
    rw [Memory.store, ih _ _ (by omega), read_write_ne _ _ (by omega)]

/-- Storing bytes keeps the canonical form. -/
theorem wf_store {m : Memory} (hm : m.wf) (a : Nat) (bs : List Byte) : (m.store a bs).wf := by
  induction bs generalizing m a with
  | nil => exact hm
  | cons b bs ih => exact ih (wf_write hm a b) _

/-- A read after a store inside the memory: the k-th stored byte at a + k, what stood there elsewhere. -/
theorem read_store {m : Memory} (hm : m.wf) {a : Nat} (bs : List Byte) (ha : a + bs.length ≤ 4096) (a' : Nat) :
    (m.store a bs).read a' = if h : a ≤ a' ∧ a' < a + bs.length then bs[a' - a]'(by omega) else m.read a' := by
  induction bs generalizing m a with
  | nil => simp [Memory.store]
  | cons b bs ih =>
    simp only [List.length_cons] at ha
    rw [Memory.store, ih (wf_write hm a b) (by omega), read_write hm (by omega)]
    simp only [List.length_cons]
    rcases Nat.lt_trichotomy a' a with h | rfl | h
    · rw [dif_neg (by omega), dif_neg (by omega), if_neg (by omega)]
    · rw [dif_neg (by omega), dif_pos (by omega), if_pos rfl]; simp
    · by_cases h' : a' < a + 1 + bs.length
      · rw [dif_pos (by omega), dif_pos (by omega), List.getElem_cons, dif_neg (by omega)]
        congr 1
      · rw [dif_neg (by omega), dif_neg (by omega), if_neg (by omega)]

@[simp] theorem length_load (m : Memory) (a n : Nat) : (m.load a n).length = n := by simp [Memory.load]

theorem getElem_load (m : Memory) (a n k : Nat) (h : k < (m.load a n).length) : (m.load a n)[k] = m.read (a + k) := by
  simp [Memory.load]

/-- The k-th register after loading n of them. -/
theorem getElem_loadInto (m : Memory) (a : Nat) (v : Vector Byte 16) {n k : Nat} (hn : n ≤ 16) (hk : k < 16) :
    (loadInto m a v n)[k] = if k < n then m.read (a + k) else v[k] := by
  induction n with
  | zero => simp [loadInto]
  | succ n ih =>
    simp only [loadInto, Vector.getElem_setIfInBounds, ih (by omega)]
    split_ifs <;> first | rfl | omega | (subst_vars; rfl)

end Sys2Proof.Machine.Memory
end

