-- ==== Sys2Proof/Laws/State.lean ====
section
/-! SUPPORT. Each field after each update of the state. -/

namespace Sys2Proof.Machine.State

variable (s : State)

/-! ### setReg -/

@[simp] theorem setReg_v (x : Nibble) (b : Byte) : (s.setReg x b).v = s.v.set x.toNat b := rfl
@[simp] theorem setReg_i (x : Nibble) (b : Byte) : (s.setReg x b).i = s.i := rfl
@[simp] theorem setReg_pc (x : Nibble) (b : Byte) : (s.setReg x b).pc = s.pc := rfl
@[simp] theorem setReg_sp (x : Nibble) (b : Byte) : (s.setReg x b).sp = s.sp := rfl
@[simp] theorem setReg_stack (x : Nibble) (b : Byte) : (s.setReg x b).stack = s.stack := rfl
@[simp] theorem setReg_dt (x : Nibble) (b : Byte) : (s.setReg x b).dt = s.dt := rfl
@[simp] theorem setReg_st (x : Nibble) (b : Byte) : (s.setReg x b).st = s.st := rfl
@[simp] theorem setReg_fb (x : Nibble) (b : Byte) : (s.setReg x b).fb = s.fb := rfl
@[simp] theorem setReg_keys (x : Nibble) (b : Byte) : (s.setReg x b).keys = s.keys := rfl
@[simp] theorem setReg_mem (x : Nibble) (b : Byte) : (s.setReg x b).mem = s.mem := rfl
@[simp] theorem setReg_status (x : Nibble) (b : Byte) : (s.setReg x b).status = s.status := rfl
@[simp] theorem setReg_beep (x : Nibble) (b : Byte) : (s.setReg x b).beep = s.beep := rfl
@[simp] theorem setReg_randIn (x : Nibble) (b : Byte) : (s.setReg x b).randIn = s.randIn := rfl
@[simp] theorem setReg_inputs (x : Nibble) (b : Byte) : (s.setReg x b).inputs = s.inputs := rfl
@[simp] theorem setReg_stepNo (x : Nibble) (b : Byte) : (s.setReg x b).stepNo = s.stepNo := rfl

/-! ### setFlag -/

@[simp] theorem setFlag_i (b : Byte) : (s.setFlag b).i = s.i := rfl
@[simp] theorem setFlag_pc (b : Byte) : (s.setFlag b).pc = s.pc := rfl
@[simp] theorem setFlag_sp (b : Byte) : (s.setFlag b).sp = s.sp := rfl
@[simp] theorem setFlag_stack (b : Byte) : (s.setFlag b).stack = s.stack := rfl
@[simp] theorem setFlag_dt (b : Byte) : (s.setFlag b).dt = s.dt := rfl
@[simp] theorem setFlag_st (b : Byte) : (s.setFlag b).st = s.st := rfl
@[simp] theorem setFlag_fb (b : Byte) : (s.setFlag b).fb = s.fb := rfl
@[simp] theorem setFlag_keys (b : Byte) : (s.setFlag b).keys = s.keys := rfl
@[simp] theorem setFlag_mem (b : Byte) : (s.setFlag b).mem = s.mem := rfl
@[simp] theorem setFlag_status (b : Byte) : (s.setFlag b).status = s.status := rfl
@[simp] theorem setFlag_beep (b : Byte) : (s.setFlag b).beep = s.beep := rfl
@[simp] theorem setFlag_randIn (b : Byte) : (s.setFlag b).randIn = s.randIn := rfl
@[simp] theorem setFlag_inputs (b : Byte) : (s.setFlag b).inputs = s.inputs := rfl
@[simp] theorem setFlag_stepNo (b : Byte) : (s.setFlag b).stepNo = s.stepNo := rfl

/-! ### setI -/

@[simp] theorem setI_v (a : Word) : (s.setI a).v = s.v := rfl
@[simp] theorem setI_i (a : Word) : (s.setI a).i = a := rfl
@[simp] theorem setI_pc (a : Word) : (s.setI a).pc = s.pc := rfl
@[simp] theorem setI_sp (a : Word) : (s.setI a).sp = s.sp := rfl
@[simp] theorem setI_stack (a : Word) : (s.setI a).stack = s.stack := rfl
@[simp] theorem setI_dt (a : Word) : (s.setI a).dt = s.dt := rfl
@[simp] theorem setI_st (a : Word) : (s.setI a).st = s.st := rfl
@[simp] theorem setI_fb (a : Word) : (s.setI a).fb = s.fb := rfl
@[simp] theorem setI_keys (a : Word) : (s.setI a).keys = s.keys := rfl
@[simp] theorem setI_mem (a : Word) : (s.setI a).mem = s.mem := rfl
@[simp] theorem setI_status (a : Word) : (s.setI a).status = s.status := rfl
@[simp] theorem setI_beep (a : Word) : (s.setI a).beep = s.beep := rfl
@[simp] theorem setI_randIn (a : Word) : (s.setI a).randIn = s.randIn := rfl
@[simp] theorem setI_inputs (a : Word) : (s.setI a).inputs = s.inputs := rfl
@[simp] theorem setI_stepNo (a : Word) : (s.setI a).stepNo = s.stepNo := rfl

/-! ### setPc -/

@[simp] theorem setPc_v (a : Word) : (s.setPc a).v = s.v := rfl
@[simp] theorem setPc_i (a : Word) : (s.setPc a).i = s.i := rfl
@[simp] theorem setPc_pc (a : Word) : (s.setPc a).pc = a := rfl
@[simp] theorem setPc_sp (a : Word) : (s.setPc a).sp = s.sp := rfl
@[simp] theorem setPc_stack (a : Word) : (s.setPc a).stack = s.stack := rfl
@[simp] theorem setPc_dt (a : Word) : (s.setPc a).dt = s.dt := rfl
@[simp] theorem setPc_st (a : Word) : (s.setPc a).st = s.st := rfl
@[simp] theorem setPc_fb (a : Word) : (s.setPc a).fb = s.fb := rfl
@[simp] theorem setPc_keys (a : Word) : (s.setPc a).keys = s.keys := rfl
@[simp] theorem setPc_mem (a : Word) : (s.setPc a).mem = s.mem := rfl
@[simp] theorem setPc_status (a : Word) : (s.setPc a).status = s.status := rfl
@[simp] theorem setPc_beep (a : Word) : (s.setPc a).beep = s.beep := rfl
@[simp] theorem setPc_randIn (a : Word) : (s.setPc a).randIn = s.randIn := rfl
@[simp] theorem setPc_inputs (a : Word) : (s.setPc a).inputs = s.inputs := rfl
@[simp] theorem setPc_stepNo (a : Word) : (s.setPc a).stepNo = s.stepNo := rfl

/-! ### advance -/

@[simp] theorem advance_v : (s.advance).v = s.v := rfl
@[simp] theorem advance_i : (s.advance).i = s.i := rfl
@[simp] theorem advance_pc : (s.advance).pc = s.pc + 2#16 := rfl
@[simp] theorem advance_sp : (s.advance).sp = s.sp := rfl
@[simp] theorem advance_stack : (s.advance).stack = s.stack := rfl
@[simp] theorem advance_dt : (s.advance).dt = s.dt := rfl
@[simp] theorem advance_st : (s.advance).st = s.st := rfl
@[simp] theorem advance_fb : (s.advance).fb = s.fb := rfl
@[simp] theorem advance_keys : (s.advance).keys = s.keys := rfl
@[simp] theorem advance_mem : (s.advance).mem = s.mem := rfl
@[simp] theorem advance_status : (s.advance).status = s.status := rfl
@[simp] theorem advance_beep : (s.advance).beep = s.beep := rfl
@[simp] theorem advance_randIn : (s.advance).randIn = s.randIn := rfl
@[simp] theorem advance_inputs : (s.advance).inputs = s.inputs := rfl
@[simp] theorem advance_stepNo : (s.advance).stepNo = s.stepNo := rfl

/-! ### skipIf -/

@[simp] theorem skipIf_v (c : Bool) : (s.skipIf c).v = s.v := rfl
@[simp] theorem skipIf_i (c : Bool) : (s.skipIf c).i = s.i := rfl
@[simp] theorem skipIf_pc (c : Bool) : (s.skipIf c).pc = if c then s.pc + 4#16 else s.pc + 2#16 := rfl
@[simp] theorem skipIf_sp (c : Bool) : (s.skipIf c).sp = s.sp := rfl
@[simp] theorem skipIf_stack (c : Bool) : (s.skipIf c).stack = s.stack := rfl
@[simp] theorem skipIf_dt (c : Bool) : (s.skipIf c).dt = s.dt := rfl
@[simp] theorem skipIf_st (c : Bool) : (s.skipIf c).st = s.st := rfl
@[simp] theorem skipIf_fb (c : Bool) : (s.skipIf c).fb = s.fb := rfl
@[simp] theorem skipIf_keys (c : Bool) : (s.skipIf c).keys = s.keys := rfl
@[simp] theorem skipIf_mem (c : Bool) : (s.skipIf c).mem = s.mem := rfl
@[simp] theorem skipIf_status (c : Bool) : (s.skipIf c).status = s.status := rfl
@[simp] theorem skipIf_beep (c : Bool) : (s.skipIf c).beep = s.beep := rfl
@[simp] theorem skipIf_randIn (c : Bool) : (s.skipIf c).randIn = s.randIn := rfl
@[simp] theorem skipIf_inputs (c : Bool) : (s.skipIf c).inputs = s.inputs := rfl
@[simp] theorem skipIf_stepNo (c : Bool) : (s.skipIf c).stepNo = s.stepNo := rfl

/-! ### setDt -/

@[simp] theorem setDt_v (b : Byte) : (s.setDt b).v = s.v := rfl
@[simp] theorem setDt_i (b : Byte) : (s.setDt b).i = s.i := rfl
@[simp] theorem setDt_pc (b : Byte) : (s.setDt b).pc = s.pc := rfl
@[simp] theorem setDt_sp (b : Byte) : (s.setDt b).sp = s.sp := rfl
@[simp] theorem setDt_stack (b : Byte) : (s.setDt b).stack = s.stack := rfl
@[simp] theorem setDt_dt (b : Byte) : (s.setDt b).dt = b := rfl
@[simp] theorem setDt_st (b : Byte) : (s.setDt b).st = s.st := rfl
@[simp] theorem setDt_fb (b : Byte) : (s.setDt b).fb = s.fb := rfl
@[simp] theorem setDt_keys (b : Byte) : (s.setDt b).keys = s.keys := rfl
@[simp] theorem setDt_mem (b : Byte) : (s.setDt b).mem = s.mem := rfl
@[simp] theorem setDt_status (b : Byte) : (s.setDt b).status = s.status := rfl
@[simp] theorem setDt_beep (b : Byte) : (s.setDt b).beep = s.beep := rfl
@[simp] theorem setDt_randIn (b : Byte) : (s.setDt b).randIn = s.randIn := rfl
@[simp] theorem setDt_inputs (b : Byte) : (s.setDt b).inputs = s.inputs := rfl
@[simp] theorem setDt_stepNo (b : Byte) : (s.setDt b).stepNo = s.stepNo := rfl

/-! ### setSt -/

@[simp] theorem setSt_v (b : Byte) : (s.setSt b).v = s.v := rfl
@[simp] theorem setSt_i (b : Byte) : (s.setSt b).i = s.i := rfl
@[simp] theorem setSt_pc (b : Byte) : (s.setSt b).pc = s.pc := rfl
@[simp] theorem setSt_sp (b : Byte) : (s.setSt b).sp = s.sp := rfl
@[simp] theorem setSt_stack (b : Byte) : (s.setSt b).stack = s.stack := rfl
@[simp] theorem setSt_dt (b : Byte) : (s.setSt b).dt = s.dt := rfl
@[simp] theorem setSt_st (b : Byte) : (s.setSt b).st = b := rfl
@[simp] theorem setSt_fb (b : Byte) : (s.setSt b).fb = s.fb := rfl
@[simp] theorem setSt_keys (b : Byte) : (s.setSt b).keys = s.keys := rfl
@[simp] theorem setSt_mem (b : Byte) : (s.setSt b).mem = s.mem := rfl
@[simp] theorem setSt_status (b : Byte) : (s.setSt b).status = s.status := rfl
@[simp] theorem setSt_beep (b : Byte) : (s.setSt b).beep = s.beep := rfl
@[simp] theorem setSt_randIn (b : Byte) : (s.setSt b).randIn = s.randIn := rfl
@[simp] theorem setSt_inputs (b : Byte) : (s.setSt b).inputs = s.inputs := rfl
@[simp] theorem setSt_stepNo (b : Byte) : (s.setSt b).stepNo = s.stepNo := rfl

/-! ### setFb -/

@[simp] theorem setFb_v (f : Screen) : (s.setFb f).v = s.v := rfl
@[simp] theorem setFb_i (f : Screen) : (s.setFb f).i = s.i := rfl
@[simp] theorem setFb_pc (f : Screen) : (s.setFb f).pc = s.pc := rfl
@[simp] theorem setFb_sp (f : Screen) : (s.setFb f).sp = s.sp := rfl
@[simp] theorem setFb_stack (f : Screen) : (s.setFb f).stack = s.stack := rfl
@[simp] theorem setFb_dt (f : Screen) : (s.setFb f).dt = s.dt := rfl
@[simp] theorem setFb_st (f : Screen) : (s.setFb f).st = s.st := rfl
@[simp] theorem setFb_fb (f : Screen) : (s.setFb f).fb = f := rfl
@[simp] theorem setFb_keys (f : Screen) : (s.setFb f).keys = s.keys := rfl
@[simp] theorem setFb_mem (f : Screen) : (s.setFb f).mem = s.mem := rfl
@[simp] theorem setFb_status (f : Screen) : (s.setFb f).status = s.status := rfl
@[simp] theorem setFb_beep (f : Screen) : (s.setFb f).beep = s.beep := rfl
@[simp] theorem setFb_randIn (f : Screen) : (s.setFb f).randIn = s.randIn := rfl
@[simp] theorem setFb_inputs (f : Screen) : (s.setFb f).inputs = s.inputs := rfl
@[simp] theorem setFb_stepNo (f : Screen) : (s.setFb f).stepNo = s.stepNo := rfl

/-! ### setMem -/

@[simp] theorem setMem_v (m : Memory) : (s.setMem m).v = s.v := rfl
@[simp] theorem setMem_i (m : Memory) : (s.setMem m).i = s.i := rfl
@[simp] theorem setMem_pc (m : Memory) : (s.setMem m).pc = s.pc := rfl
@[simp] theorem setMem_sp (m : Memory) : (s.setMem m).sp = s.sp := rfl
@[simp] theorem setMem_stack (m : Memory) : (s.setMem m).stack = s.stack := rfl
@[simp] theorem setMem_dt (m : Memory) : (s.setMem m).dt = s.dt := rfl
@[simp] theorem setMem_st (m : Memory) : (s.setMem m).st = s.st := rfl
@[simp] theorem setMem_fb (m : Memory) : (s.setMem m).fb = s.fb := rfl
@[simp] theorem setMem_keys (m : Memory) : (s.setMem m).keys = s.keys := rfl
@[simp] theorem setMem_mem (m : Memory) : (s.setMem m).mem = m := rfl
@[simp] theorem setMem_status (m : Memory) : (s.setMem m).status = s.status := rfl
@[simp] theorem setMem_beep (m : Memory) : (s.setMem m).beep = s.beep := rfl
@[simp] theorem setMem_randIn (m : Memory) : (s.setMem m).randIn = s.randIn := rfl
@[simp] theorem setMem_inputs (m : Memory) : (s.setMem m).inputs = s.inputs := rfl
@[simp] theorem setMem_stepNo (m : Memory) : (s.setMem m).stepNo = s.stepNo := rfl

/-! ### setStatus -/

@[simp] theorem setStatus_v (o : Status) : (s.setStatus o).v = s.v := rfl
@[simp] theorem setStatus_i (o : Status) : (s.setStatus o).i = s.i := rfl
@[simp] theorem setStatus_pc (o : Status) : (s.setStatus o).pc = s.pc := rfl
@[simp] theorem setStatus_sp (o : Status) : (s.setStatus o).sp = s.sp := rfl
@[simp] theorem setStatus_stack (o : Status) : (s.setStatus o).stack = s.stack := rfl
@[simp] theorem setStatus_dt (o : Status) : (s.setStatus o).dt = s.dt := rfl
@[simp] theorem setStatus_st (o : Status) : (s.setStatus o).st = s.st := rfl
@[simp] theorem setStatus_fb (o : Status) : (s.setStatus o).fb = s.fb := rfl
@[simp] theorem setStatus_keys (o : Status) : (s.setStatus o).keys = s.keys := rfl
@[simp] theorem setStatus_mem (o : Status) : (s.setStatus o).mem = s.mem := rfl
@[simp] theorem setStatus_status (o : Status) : (s.setStatus o).status = o := rfl
@[simp] theorem setStatus_beep (o : Status) : (s.setStatus o).beep = s.beep := rfl
@[simp] theorem setStatus_randIn (o : Status) : (s.setStatus o).randIn = s.randIn := rfl
@[simp] theorem setStatus_inputs (o : Status) : (s.setStatus o).inputs = s.inputs := rfl
@[simp] theorem setStatus_stepNo (o : Status) : (s.setStatus o).stepNo = s.stepNo := rfl

/-! ### pop -/

@[simp] theorem pop_v : (s.pop).v = s.v := rfl
@[simp] theorem pop_i : (s.pop).i = s.i := rfl
@[simp] theorem pop_pc : (s.pop).pc = s.pc := rfl
@[simp] theorem pop_stack : (s.pop).stack = s.stack := rfl
@[simp] theorem pop_dt : (s.pop).dt = s.dt := rfl
@[simp] theorem pop_st : (s.pop).st = s.st := rfl
@[simp] theorem pop_fb : (s.pop).fb = s.fb := rfl
@[simp] theorem pop_keys : (s.pop).keys = s.keys := rfl
@[simp] theorem pop_mem : (s.pop).mem = s.mem := rfl
@[simp] theorem pop_status : (s.pop).status = s.status := rfl
@[simp] theorem pop_beep : (s.pop).beep = s.beep := rfl
@[simp] theorem pop_randIn : (s.pop).randIn = s.randIn := rfl
@[simp] theorem pop_inputs : (s.pop).inputs = s.inputs := rfl
@[simp] theorem pop_stepNo : (s.pop).stepNo = s.stepNo := rfl

/-! ### tick -/

@[simp] theorem tick_v : (s.tick).v = s.v := rfl
@[simp] theorem tick_i : (s.tick).i = s.i := rfl
@[simp] theorem tick_pc : (s.tick).pc = s.pc := rfl
@[simp] theorem tick_sp : (s.tick).sp = s.sp := rfl
@[simp] theorem tick_stack : (s.tick).stack = s.stack := rfl
@[simp] theorem tick_dt : (s.tick).dt = tickByte s.dt := rfl
@[simp] theorem tick_st : (s.tick).st = tickByte s.st := rfl
@[simp] theorem tick_fb : (s.tick).fb = s.fb := rfl
@[simp] theorem tick_keys : (s.tick).keys = s.keys := rfl
@[simp] theorem tick_mem : (s.tick).mem = s.mem := rfl
@[simp] theorem tick_status : (s.tick).status = s.status := rfl
@[simp] theorem tick_beep : (s.tick).beep = decide (s.st ≠ 0#8) := rfl
@[simp] theorem tick_randIn : (s.tick).randIn = s.randIn := rfl
@[simp] theorem tick_inputs : (s.tick).inputs = s.inputs := rfl
@[simp] theorem tick_stepNo : (s.tick).stepNo = s.stepNo := rfl

/-! ### sample -/

@[simp] theorem sample_v : (s.sample).v = s.v := rfl
@[simp] theorem sample_i : (s.sample).i = s.i := rfl
@[simp] theorem sample_pc : (s.sample).pc = s.pc := rfl
@[simp] theorem sample_sp : (s.sample).sp = s.sp := rfl
@[simp] theorem sample_stack : (s.sample).stack = s.stack := rfl
@[simp] theorem sample_dt : (s.sample).dt = s.dt := rfl
@[simp] theorem sample_st : (s.sample).st = s.st := rfl
@[simp] theorem sample_fb : (s.sample).fb = s.fb := rfl
@[simp] theorem sample_keys : (s.sample).keys = s.nextInput.keysIn := rfl
@[simp] theorem sample_mem : (s.sample).mem = s.mem := rfl
@[simp] theorem sample_status : (s.sample).status = .ok := rfl
@[simp] theorem sample_beep : (s.sample).beep = false := rfl
@[simp] theorem sample_randIn : (s.sample).randIn = s.nextInput.randIn := rfl
@[simp] theorem sample_inputs : (s.sample).inputs = s.inputs.tail := rfl
@[simp] theorem sample_stepNo : (s.sample).stepNo = s.stepNo + 1 := rfl

/-! ### push -/

@[simp] theorem push_v (a : Word) : (s.push a).v = s.v := by unfold push; split <;> rfl
@[simp] theorem push_i (a : Word) : (s.push a).i = s.i := by unfold push; split <;> rfl
@[simp] theorem push_pc (a : Word) : (s.push a).pc = s.pc := by unfold push; split <;> rfl
@[simp] theorem push_dt (a : Word) : (s.push a).dt = s.dt := by unfold push; split <;> rfl
@[simp] theorem push_st (a : Word) : (s.push a).st = s.st := by unfold push; split <;> rfl
@[simp] theorem push_fb (a : Word) : (s.push a).fb = s.fb := by unfold push; split <;> rfl
@[simp] theorem push_keys (a : Word) : (s.push a).keys = s.keys := by unfold push; split <;> rfl
@[simp] theorem push_mem (a : Word) : (s.push a).mem = s.mem := by unfold push; split <;> rfl
@[simp] theorem push_status (a : Word) : (s.push a).status = s.status := by unfold push; split <;> rfl
@[simp] theorem push_beep (a : Word) : (s.push a).beep = s.beep := by unfold push; split <;> rfl
@[simp] theorem push_randIn (a : Word) : (s.push a).randIn = s.randIn := by unfold push; split <;> rfl
@[simp] theorem push_inputs (a : Word) : (s.push a).inputs = s.inputs := by unfold push; split <;> rfl
@[simp] theorem push_stepNo (a : Word) : (s.push a).stepNo = s.stepNo := by unfold push; split <;> rfl

theorem push_sp {a : Word} (h : s.sp.val < 16) : (s.push a).sp.val = s.sp.val + 1 := by simp [push, h]

theorem push_stack {a : Word} (h : s.sp.val < 16) : (s.push a).stack = s.stack.set s.sp.val a := by simp [push, h]

@[simp] theorem pop_sp : s.pop.sp.val = s.sp.val - 1 := rfl

/-! ### Registers read after an update -/

theorem reg_congr {s t : State} (h : t.v = s.v) (r : Nibble) : t.reg r = s.reg r := by simp only [reg, h]

@[simp] theorem setReg_reg (x r : Nibble) (b : Byte) : (s.setReg x b).reg r = if r = x then b else s.reg r := by
  simp only [reg, setReg_v, Vector.getElem_set, BitVec.toNat_inj, eq_comm]

@[simp] theorem setFlag_reg (r : Nibble) (b : Byte) : (s.setFlag b).reg r = if r = vf then b else s.reg r :=
  s.setReg_reg vf r b

@[simp] theorem setI_reg (a : Word) (r : Nibble) : (s.setI a).reg r = s.reg r := rfl
@[simp] theorem setPc_reg (a : Word) (r : Nibble) : (s.setPc a).reg r = s.reg r := rfl
@[simp] theorem advance_reg (r : Nibble) : (s.advance).reg r = s.reg r := rfl
@[simp] theorem skipIf_reg (c : Bool) (r : Nibble) : (s.skipIf c).reg r = s.reg r := rfl
@[simp] theorem setDt_reg (b : Byte) (r : Nibble) : (s.setDt b).reg r = s.reg r := rfl
@[simp] theorem setSt_reg (b : Byte) (r : Nibble) : (s.setSt b).reg r = s.reg r := rfl
@[simp] theorem setFb_reg (f : Screen) (r : Nibble) : (s.setFb f).reg r = s.reg r := rfl
@[simp] theorem setMem_reg (m : Memory) (r : Nibble) : (s.setMem m).reg r = s.reg r := rfl
@[simp] theorem setStatus_reg (o : Status) (r : Nibble) : (s.setStatus o).reg r = s.reg r := rfl
@[simp] theorem pop_reg (r : Nibble) : (s.pop).reg r = s.reg r := rfl
@[simp] theorem tick_reg (r : Nibble) : (s.tick).reg r = s.reg r := rfl
@[simp] theorem sample_reg (r : Nibble) : (s.sample).reg r = s.reg r := rfl
@[simp] theorem push_reg (a : Word) (r : Nibble) : (s.push a).reg r = s.reg r := reg_congr (s.push_v a) r

end Sys2Proof.Machine.State
end

