-- ==== Sys2Proof/Laws/Ops.lean ====
section
/-! SUPPORT. The shared operations: what a checked answer can be, the frames of the updates, values of operands and flags. -/

namespace Sys2Proof.Machine

/-! ### Answers -/

@[simp] theorem answer_next_inj {s t : State} : (Host.Outcome.next s : Answer) = .next t ↔ s = t :=
  ⟨fun h => by injection h, fun h => by rw [h]⟩

@[simp] theorem answer_fault_inj {f g : Fault} : (Host.Outcome.fault f : Answer) = .fault g ↔ f = g :=
  ⟨fun h => by injection h, fun h => by rw [h]⟩

@[simp] theorem answer_refused_inj {r q : Refusal} : (Host.Outcome.refused r : Answer) = .refused q ↔ r = q :=
  ⟨fun h => by injection h, fun h => by rw [h]⟩

@[simp] theorem check_true (f : Fault) (k : Answer) : check true f k = k := rfl

@[simp] theorem check_false (f : Fault) (k : Answer) : check false f k = .fault f := rfl

/-- A checked state is answered only where the check holds. -/
@[simp] theorem check_next_iff {c : Bool} {f : Fault} {u t : State} :
    check c f (.next u) = .next t ↔ c = true ∧ u = t := by cases c <;> simp

/-- The check's error is answered only where the check fails. -/
@[simp] theorem check_fault_iff {c : Bool} {f g : Fault} {u : State} :
    check c f (.next u) = .fault g ↔ c = false ∧ f = g := by cases c <;> simp

@[simp] theorem check_ne_refused {c : Bool} {f : Fault} {u : State} {r : Refusal} :
    check c f (.next u) ≠ .refused r := by cases c <;> simp

/-! ### The check each instruction makes, once for all of them -/

/-- The condition an instruction needs to complete (60_exceptions.md R181). -/
def instrOk (s : State) : Instr → Bool
  | .ret => decide (0 < s.sp.val)
  | .call _ => decide (s.sp.val < 16)
  | .drw _ _ n => accessOk s.dataAddr n.toNat
  | .ldB _ => accessOk s.dataAddr 3
  | .storeRegs x => accessOk s.dataAddr (regCount x)
  | .loadRegs x => accessOk s.dataAddr (regCount x)
  | .skp x => decide ((s.reg x).toNat < 16)
  | .sknp x => decide ((s.reg x).toNat < 16)
  | _ => true

/-- The fatal error of an instruction whose check fails. -/
def instrFault (s : State) : Instr → Fault
  | .ret => .stackUnderflow s.pc none s.sp.val
  | .call _ => .stackOverflow s.pc none s.sp.val
  | .skp x => .keyIndex s.pc none (s.reg x)
  | .sknp x => .keyIndex s.pc none (s.reg x)
  | _ => s.dataFault

/-- Every instruction is its check, then one next state: this says once what `exec` can answer. -/
theorem exec_eq_check (i : Instr) (s : State) : ∃ u, exec i s = check (instrOk s i) (instrFault s i) (.next u) := by
  cases i <;> exact ⟨_, rfl⟩

theorem exec_fault_iff {i : Instr} {s : State} {f : Fault} : exec i s = .fault f ↔ instrOk s i = false ∧ instrFault s i = f := by
  obtain ⟨u, h⟩ := exec_eq_check i s
  simp [h]

theorem exec_next_iff {i : Instr} {s : State} : (∃ t, exec i s = .next t) ↔ instrOk s i = true := by
  obtain ⟨u, h⟩ := exec_eq_check i s
  simp [h]

theorem exec_ne_refused (i : Instr) (s : State) (r : Refusal) : exec i s ≠ .refused r := by
  obtain ⟨u, h⟩ := exec_eq_check i s
  simp [h]

theorem accessOk_iff {a n : Nat} : accessOk a n = true ↔ n = 0 ∨ a + n ≤ 4096 := by simp [accessOk]

theorem accessOk_false_iff {a n : Nat} : accessOk a n = false ↔ n ≠ 0 ∧ 4096 < a + n := by simp [accessOk]

/-! ### PC -/

theorem pcPlus_advance (s : State) : PcPlus 2 s s.advance := by
  simp [PcPlus, State.advance_pc, BitVec.toNat_add]

/-- The normal advance of a state that kept the PC of s. -/
theorem pcPlus_advance_of {s t : State} (h : t.pc = s.pc) : PcPlus 2 s t.advance := by
  simp [PcPlus, State.advance_pc, BitVec.toNat_add, h]

theorem pcPlus_skipIf (s : State) (c : Bool) : PcPlus (if c then 4 else 2) s (s.skipIf c) := by
  cases c <;> simp [PcPlus, State.skipIf_pc, BitVec.toNat_add]

/-! ### Frames -/

theorem Keeps.refl (f : Footprint) (s : State) : Keeps f s s := by constructor <;> intros <;> first | rfl | exact ⟨rfl, rfl⟩ | exact ⟨rfl, rfl, rfl⟩

theorem Keeps.trans {f : Footprint} {s t u : State} (h : Keeps f s t) (h' : Keeps f t u) : Keeps f s u where
  regs r hr := (h'.regs r hr).trans (h.regs r hr)
  index e := (h'.index e).trans (h.index e)
  calls e := ⟨(h'.calls e).1.trans (h.calls e).1, (h'.calls e).2.trans (h.calls e).2⟩
  delay e := (h'.delay e).trans (h.delay e)
  sound e := (h'.sound e).trans (h.sound e)
  screen e := (h'.screen e).trans (h.screen e)
  bytes a ha := (h'.bytes a ha).trans (h.bytes a ha)
  status e := (h'.status e).trans (h.status e)
  keys := h'.keys.trans h.keys
  beep := h'.beep.trans h.beep
  inputs := ⟨h'.inputs.1.trans h.inputs.1, h'.inputs.2.1.trans h.inputs.2.1, h'.inputs.2.2.trans h.inputs.2.2⟩

/-- Writing PC is in no frame. -/
theorem keeps_setPc (f : Footprint) (s : State) (a : Word) : Keeps f s (s.setPc a) := by constructor <;> simp

theorem keeps_advance (f : Footprint) (s : State) : Keeps f s s.advance := keeps_setPc f s _

theorem keeps_skipIf (f : Footprint) (s : State) (c : Bool) : Keeps f s (s.skipIf c) := keeps_setPc f s _

theorem keeps_setReg {f : Footprint} (s : State) {x : Nibble} (b : Byte) (h : f.regs x) : Keeps f s (s.setReg x b) := by
  constructor <;> simp
  intro r hr e
  exact absurd (e ▸ h) hr

theorem keeps_setI {f : Footprint} (s : State) (a : Word) (h : f.index = true) : Keeps f s (s.setI a) := by
  constructor <;> simp [h]

theorem keeps_setDt {f : Footprint} (s : State) (b : Byte) (h : f.delay = true) : Keeps f s (s.setDt b) := by
  constructor <;> simp [h]

theorem keeps_setSt {f : Footprint} (s : State) (b : Byte) (h : f.sound = true) : Keeps f s (s.setSt b) := by
  constructor <;> simp [h]

theorem keeps_setFb {f : Footprint} (s : State) (b : Screen) (h : f.screen = true) : Keeps f s (s.setFb b) := by
  constructor <;> simp [h]

theorem keeps_setStatus {f : Footprint} (s : State) (o : Status) (h : f.status = true) : Keeps f s (s.setStatus o) := by
  constructor <;> simp [h]

theorem keeps_push {f : Footprint} (s : State) (a : Word) (h : f.calls = true) : Keeps f s (s.push a) := by
  constructor <;> simp [h]

theorem keeps_pop {f : Footprint} (s : State) (h : f.calls = true) : Keeps f s s.pop := by
  constructor <;> simp [h]

/-- Storing bytes keeps every byte the footprint does not name. -/
theorem keeps_store {f : Footprint} (s : State) {a : Nat} (bs : List Byte)
    (h : ∀ k, a ≤ k → k < a + bs.length → f.bytes k) : Keeps f s (s.setMem (s.mem.store a bs)) := by
  constructor <;> simp
  exact fun k hk => Memory.read_store_of_not_range _ _ _ fun e => hk (h k e.1 e.2)

/-! ### Operands and flags as numbers -/

@[simp] theorem absolute_toNat (nnn : Addr12) : (absolute nnn).toNat = nnn.toNat := by
  have := nnn.isLt; simp [absolute]; omega

@[simp] theorem zext16_toNat (b : Byte) : (zext16 b).toNat = b.toNat := by
  have := b.isLt; simp [zext16]; omega

@[simp] theorem offsetTarget_toNat (nnn : Addr12) (b : Byte) : (offsetTarget nnn b).toNat = nnn.toNat + b.toNat := by
  have := nnn.isLt; have := b.isLt
  rw [offsetTarget, BitVec.toNat_add, absolute_toNat, zext16_toNat]; omega

@[simp] theorem glyphAddr_toNat (b : Byte) : (glyphAddr b).toNat = b.toNat * 5 := by
  have := b.isLt
  rw [glyphAddr, BitVec.toNat_mul, zext16_toNat]; simp; omega

@[simp] theorem flagByte_toNat (c : Bool) : (flagByte c).toNat = if c then 1 else 0 := by cases c <;> rfl

theorem carry_toNat (a b : Byte) : (carry a b).toNat = if a.toNat + b.toNat > 255 then 1 else 0 := by simp [carry]

theorem notBorrow_toNat (a b : Byte) : (notBorrow a b).toNat = if b.toNat > a.toNat then 0 else 1 := by
  simp only [notBorrow, flagByte_toNat, decide_eq_true_eq]; split_ifs <;> omega

theorem lowBit_toNat (a : Byte) : (lowBit a).toNat = a.toNat % 2 := by
  rw [lowBit, BitVec.toNat_and]; exact Nat.and_one_is_mod _

theorem highBit_toNat (a : Byte) : (highBit a).toNat = a.toNat / 128 := by
  rw [highBit, BitVec.toNat_ushiftRight, Nat.shiftRight_eq_div_pow]

theorem indexOverflow_toNat (i : Word) (b : Byte) :
    (indexOverflow i b).toNat = if i.toNat + b.toNat > 0xFFF then 1 else 0 := by simp [indexOverflow]

@[simp] theorem tickByte_toNat (t : Byte) : (tickByte t).toNat = t.toNat - 1 := by
  unfold tickByte
  split
  · simp_all
  · have : t.toNat ≠ 0 := fun e => ‹¬ t = 0#8› (BitVec.eq_of_toNat_eq e)
    have := t.isLt
    rw [BitVec.toNat_sub]; simp; omega

@[simp] theorem bcdDigits_length (b : Byte) : (bcdDigits b).length = 3 := rfl

@[simp] theorem firstRegs_length (s : State) (x : Nibble) : (s.firstRegs x).length = regCount x := by
  have := x.isLt; simp [State.firstRegs, regCount]; omega

theorem getElem_firstRegs (s : State) (x k : Nibble) (h : k.toNat < (s.firstRegs x).length) :
    (s.firstRegs x)[k.toNat] = s.reg k := by
  simp [State.firstRegs, State.reg]

theorem iPast_toNat (s : State) (x : Nibble) : (s.iPast x).toNat = (s.i.toNat + x.toNat + 1) % 2 ^ 16 := by
  simp [State.iPast, regCount, BitVec.toNat_add, Nat.add_assoc]

theorem lowestKey_eq_some {s : State} {k : Nat} (hk : k < 16) (hd : s.keyDown k = true)
    (hl : ∀ j < k, s.keyDown j = false) : s.lowestKey = some k := by
  rw [State.lowestKey, List.find?_range_eq_some]
  exact ⟨hd, by simpa using hk, fun j hj => by simp [hl j hj]⟩

theorem lowestKey_eq_none {s : State} (h : ∀ k < 16, s.keyDown k = false) : s.lowestKey = none := by
  rw [State.lowestKey, List.find?_eq_none]
  intro k hk
  simp [h k (List.mem_range.1 hk)]

theorem lowestKey_lt {s : State} {k : Nat} (h : s.lowestKey = some k) : k < 16 :=
  List.mem_range.1 (List.mem_of_find?_eq_some h)

end Sys2Proof.Machine
end

