-- ==== Sys2Proof/Laws/Display.lean ====
section
/-! SUPPORT. What a draw does, cell by cell (45_display.md R162, R163). -/

namespace Sys2Proof.Machine

theorem cellIndex_inj {x y x' y' : Nat} (h : x < 64) (h' : x' < 64) :
    cellIndex x y = cellIndex x' y' ↔ x = x' ∧ y = y' := by
  simp only [cellIndex, Config.fbWidth]; omega

/-- A toggle changes its own cell and no other. -/
theorem getCell_toggleCell (fb : Screen) {x y x' y' : Nat} (hx : x < 64) (hx' : x' < 64) (hy' : y' < 32) :
    getCell (toggleCell fb x y) x' y' = (getCell fb x' y' ^^ decide (x' = x ∧ y' = y)) := by
  have hlt : cellIndex x' y' < 2048 := by simp only [cellIndex, Config.fbWidth]; omega
  simp only [getCell, toggleCell, BitVec.getLsbD_xor, BitVec.getLsbD_shiftLeft, BitVec.getLsbD_one]
  congr 1
  rw [Bool.eq_iff_iff]
  simp only [Bool.and_eq_true, decide_eq_true_eq, Bool.not_eq_true', decide_eq_false_iff_not]
  rw [← cellIndex_inj hx' hx]
  omega

theorem getCell_clearAll (x y : Nat) : getCell clearAll x y = false := by simp [getCell, clearAll]

/-- Cells on the grid, none of them twice. -/
abbrev GridCells (cells : List (Nat × Nat)) : Prop := cells.Nodup ∧ ∀ c ∈ cells, c.1 < 64 ∧ c.2 < 32

/-- A draw of distinct on-grid cells XORs exactly those, and collides iff one of them was on. -/
theorem foldl_drawCell {cells : List (Nat × Nat)} (h : GridCells cells) (p : Screen × Bool) :
    (∀ x y, x < 64 → y < 32 →
      getCell (cells.foldl drawCell p).1 x y = (getCell p.1 x y ^^ decide ((x, y) ∈ cells))) ∧
    (cells.foldl drawCell p).2 = (p.2 || cells.any fun c => getCell p.1 c.1 c.2) := by
  induction cells generalizing p with
  | nil => simp
  | cons c cs ih =>
    obtain ⟨hn, hg⟩ := h
    obtain ⟨hc, hcs⟩ := List.nodup_cons.1 hn
    have hgc := hg c (by simp)
    obtain ⟨ih1, ih2⟩ := ih ⟨hcs, fun d hd => hg d (by simp [hd])⟩ (drawCell p c)
    simp only [List.foldl_cons]
    refine ⟨fun x y hx hy => ?_, ?_⟩
    · rw [ih1 x y hx hy]
      simp only [drawCell, getCell_toggleCell _ hgc.1 hx hy, List.mem_cons, Bool.xor_assoc]
      congr 1
      have hxy : (x = c.1 ∧ y = c.2) = ((x, y) = c) := by simp [Prod.ext_iff]
      simp only [hxy]
      by_cases e : (x, y) = c
      · subst e; simp [hc]
      · simp [e]
    · rw [ih2]
      simp only [drawCell, List.any_cons, Bool.or_assoc]
      congr 2
      rw [Bool.eq_iff_iff, List.any_eq_true, List.any_eq_true]
      refine exists_congr fun d => and_congr_right fun hd => ?_
      have hgd := hg d (by simp [hd])
      have : ¬ (d.1 = c.1 ∧ d.2 = c.2) := fun e => hc (Prod.ext e.1 e.2 ▸ hd)
      simp [getCell_toggleCell _ hgc.1 hgd.1 hgd.2, this]

theorem drawCells_getCell {cells : List (Nat × Nat)} (h : GridCells cells) (fb : Screen) {x y : Nat} (hx : x < 64)
    (hy : y < 32) : getCell (drawCells fb cells).1 x y = (getCell fb x y ^^ decide ((x, y) ∈ cells)) :=
  (foldl_drawCell h (fb, false)).1 x y hx hy

theorem drawCells_collision {cells : List (Nat × Nat)} (h : GridCells cells) (fb : Screen) :
    (drawCells fb cells).2 = true ↔ ∃ c ∈ cells, getCell fb c.1 c.2 = true := by
  rw [drawCells, (foldl_drawCell h (fb, false)).2]; simp

theorem mem_rowCells {x0 y cx cy : Nat} {b : Byte} :
    (cx, cy) ∈ rowCells x0 y b ↔
      cy = y ∧ x0 ≤ cx ∧ cx < x0 + 8 ∧ cx < 64 ∧ cy < 32 ∧ b.getLsbD (7 - (cx - x0)) = true := by
  simp only [rowCells, List.mem_map, List.mem_filter, List.mem_range, Bool.and_eq_true, onGrid, Config.fbWidth,
    Config.fbHeight, decide_eq_true_eq, Prod.mk.injEq]
  constructor
  · rintro ⟨c, ⟨hc, hb, h1, h2⟩, rfl, rfl⟩
    refine ⟨rfl, by omega, by omega, h1, h2, ?_⟩
    rwa [Nat.add_sub_cancel_left]
  · rintro ⟨rfl, h1, h2, h3, h4, h5⟩
    exact ⟨cx - x0, ⟨by omega, h5, by omega, h4⟩, by omega, rfl⟩

/-- The cells of a sprite are the on-grid cells under its set bits. -/
theorem mem_spriteCells {x0 cx cy : Nat} {rows : List Byte} {y0 : Nat} :
    (cx, cy) ∈ spriteCells x0 y0 rows ↔
      x0 ≤ cx ∧ cx < x0 + 8 ∧ cx < 64 ∧ cy < 32 ∧ y0 ≤ cy ∧
      ∃ h : cy - y0 < rows.length, (rows[cy - y0]).getLsbD (7 - (cx - x0)) = true := by
  induction rows generalizing y0 with
  | nil => simp [spriteCells]
  | cons b rows ih =>
    simp only [spriteCells, List.mem_append, mem_rowCells, ih, List.length_cons]
    constructor
    · rintro (⟨rfl, h1, h2, h3, h4, h5⟩ | ⟨h1, h2, h3, h4, h5, h6, h7⟩)
      · exact ⟨h1, h2, h3, h4, le_rfl, by omega, by simpa using h5⟩
      · refine ⟨h1, h2, h3, h4, by omega, by omega, ?_⟩
        rw [List.getElem_cons, dif_neg (by omega)]
        exact h7
    · rintro ⟨h1, h2, h3, h4, h5, h6, h7⟩
      rcases Nat.eq_or_lt_of_le h5 with rfl | h
      · exact .inl ⟨rfl, h1, h2, h3, h4, by simpa using h7⟩
      · refine .inr ⟨h1, h2, h3, h4, by omega, by omega, ?_⟩
        rw [List.getElem_cons, dif_neg (by omega)] at h7
        exact h7

theorem nodup_rowCells (x0 y : Nat) (b : Byte) : (rowCells x0 y b).Nodup := by
  unfold rowCells
  refine (List.Nodup.filter _ List.nodup_range).map fun c d h => ?_
  simpa using h

theorem gridCells_spriteCells (x0 y0 : Nat) (rows : List Byte) : GridCells (spriteCells x0 y0 rows) := by
  refine ⟨?_, fun ⟨cx, cy⟩ h => ⟨(mem_spriteCells.1 h).2.2.1, (mem_spriteCells.1 h).2.2.2.1⟩⟩
  induction rows generalizing y0 with
  | nil => simp [spriteCells]
  | cons b rows ih =>
    refine List.nodup_append.2 ⟨nodup_rowCells x0 y0 b, ih (y0 + 1), ?_⟩
    rintro ⟨cx, cy⟩ h ⟨dx, dy⟩ h' e
    have h1 := (mem_rowCells.1 h).1
    have h2 := (mem_spriteCells.1 h').2.2.2.2.1
    simp only [Prod.mk.injEq] at e
    omega

/-- The cells a DXYN draws are the on-grid cells under the set bits of its sprite. -/
theorem mem_spriteOf {s : State} {x y n : Nibble} {cx cy : Nat} :
    (cx, cy) ∈ s.spriteOf x y n ↔ cx < 64 ∧ cy < 32 ∧ s.spriteBit x y n cx cy := by
  simp only [State.spriteOf, mem_spriteCells, Memory.length_load, Memory.getElem_load, State.spriteBit, State.dataAddr]
  constructor
  · rintro ⟨h1, h2, h3, h4, h5, h6, h7⟩
    exact ⟨h3, h4, h1, h2, h5, by omega, h7⟩
  · rintro ⟨h3, h4, h1, h2, h5, h6, h7⟩
    exact ⟨h1, h2, h3, h4, h5, by omega, h7⟩

theorem gridCells_spriteOf (s : State) (x y n : Nibble) : GridCells (s.spriteOf x y n) := gridCells_spriteCells _ _ _

/-- Two framebuffers with equal cells are equal. -/
theorem screen_ext {f g : Screen} (h : ∀ x y, x < 64 → y < 32 → getCell f x y = getCell g x y) : f = g := by
  refine BitVec.eq_of_getLsbD_eq fun k hk => ?_
  have := h (k % 64) (k / 64) (by omega) (by omega)
  simpa only [getCell, cellIndex, Config.fbWidth, Nat.mul_comm (k / 64) 64, Nat.mod_add_div] using this

end Sys2Proof.Machine
end

