-- ==== Sys2Proof/Laws/PerInstr.lean ====
section
/-! SUPPORT. One lemma per instruction: its row of the opcode map (30_encoding.md R74) selects its word. -/

namespace Sys2Proof.Laws.RowMatch

/-- The mask and match columns of the instruction's row accept its encoding. -/
def Statement (i : Instr) : Prop := (opcodeRow i).selects (encode i) = true

/-- A row that tests op alone, with the operand NNN. -/
theorem of_nnn (op : Nibble) (nnn : Addr12) : (OpcodeRow.mk 0xF000 (op ++ 0#12)).selects (op ++ nnn) = true :=
  beq_iff_eq.2 ((and_maskOp _).trans (by simp))

/-- A row that tests op alone, with the operands X and NN. -/
theorem of_xnn (op x : Nibble) (nn : Byte) : (OpcodeRow.mk 0xF000 (op ++ 0#12)).selects (op ++ x ++ nn) = true :=
  beq_iff_eq.2 ((and_maskOp _).trans (by simp))

/-- A row that tests op alone, with the operands X, Y and N. -/
theorem of_xyn (op x y n : Nibble) : (OpcodeRow.mk 0xF000 (op ++ 0#12)).selects (op ++ x ++ y ++ n) = true :=
  beq_iff_eq.2 ((and_maskOp _).trans (by simp))

/-- A row that tests op and N. -/
theorem of_xy (op x y n : Nibble) :
    (OpcodeRow.mk 0xF00F (op ++ 0#4 ++ 0#4 ++ n)).selects (op ++ x ++ y ++ n) = true :=
  beq_iff_eq.2 ((and_maskOpN _).trans (by simp))

/-- A row that tests op and NN. -/
theorem of_x (op x : Nibble) (nn : Byte) : (OpcodeRow.mk 0xF0FF (op ++ 0#4 ++ nn)).selects (op ++ x ++ nn) = true :=
  beq_iff_eq.2 ((and_maskOpNN _).trans (by simp))

theorem cls : Statement .cls := rfl

theorem ret : Statement .ret := rfl

theorem jp (nnn : Addr12) : Statement (.jp nnn) := of_nnn 0x1#4 nnn

theorem call (nnn : Addr12) : Statement (.call nnn) := of_nnn 0x2#4 nnn

theorem seImm (x : Nibble) (nn : Byte) : Statement (.seImm x nn) := of_xnn 0x3#4 x nn

theorem sneImm (x : Nibble) (nn : Byte) : Statement (.sneImm x nn) := of_xnn 0x4#4 x nn

theorem seReg (x : Nibble) (y : Nibble) : Statement (.seReg x y) := of_xy 0x5#4 x y 0x0#4

theorem ldImm (x : Nibble) (nn : Byte) : Statement (.ldImm x nn) := of_xnn 0x6#4 x nn

theorem addImm (x : Nibble) (nn : Byte) : Statement (.addImm x nn) := of_xnn 0x7#4 x nn

theorem ldReg (x : Nibble) (y : Nibble) : Statement (.ldReg x y) := of_xy 0x8#4 x y 0x0#4

theorem orReg (x : Nibble) (y : Nibble) : Statement (.orReg x y) := of_xy 0x8#4 x y 0x1#4

theorem andReg (x : Nibble) (y : Nibble) : Statement (.andReg x y) := of_xy 0x8#4 x y 0x2#4

theorem xorReg (x : Nibble) (y : Nibble) : Statement (.xorReg x y) := of_xy 0x8#4 x y 0x3#4

theorem addReg (x : Nibble) (y : Nibble) : Statement (.addReg x y) := of_xy 0x8#4 x y 0x4#4

theorem subReg (x : Nibble) (y : Nibble) : Statement (.subReg x y) := of_xy 0x8#4 x y 0x5#4

theorem shr (x : Nibble) (y : Nibble) : Statement (.shr x y) := of_xy 0x8#4 x y 0x6#4

theorem subnReg (x : Nibble) (y : Nibble) : Statement (.subnReg x y) := of_xy 0x8#4 x y 0x7#4

theorem shl (x : Nibble) (y : Nibble) : Statement (.shl x y) := of_xy 0x8#4 x y 0xE#4

theorem sneReg (x : Nibble) (y : Nibble) : Statement (.sneReg x y) := of_xy 0x9#4 x y 0x0#4

theorem ldI (nnn : Addr12) : Statement (.ldI nnn) := of_nnn 0xA#4 nnn

theorem jpV0 (nnn : Addr12) : Statement (.jpV0 nnn) := of_nnn 0xB#4 nnn

theorem rnd (x : Nibble) (nn : Byte) : Statement (.rnd x nn) := of_xnn 0xC#4 x nn

theorem drw (x : Nibble) (y : Nibble) (n : Nibble) : Statement (.drw x y n) := of_xyn 0xD#4 x y n

theorem skp (x : Nibble) : Statement (.skp x) := of_x 0xE#4 x 0x9E#8

theorem sknp (x : Nibble) : Statement (.sknp x) := of_x 0xE#4 x 0xA1#8

theorem ldVxDt (x : Nibble) : Statement (.ldVxDt x) := of_x 0xF#4 x 0x07#8

theorem ldVxK (x : Nibble) : Statement (.ldVxK x) := of_x 0xF#4 x 0x0A#8

theorem ldDtVx (x : Nibble) : Statement (.ldDtVx x) := of_x 0xF#4 x 0x15#8

theorem ldStVx (x : Nibble) : Statement (.ldStVx x) := of_x 0xF#4 x 0x18#8

theorem addI (x : Nibble) : Statement (.addI x) := of_x 0xF#4 x 0x1E#8

theorem ldF (x : Nibble) : Statement (.ldF x) := of_x 0xF#4 x 0x29#8

theorem ldB (x : Nibble) : Statement (.ldB x) := of_x 0xF#4 x 0x33#8

theorem storeRegs (x : Nibble) : Statement (.storeRegs x) := of_x 0xF#4 x 0x55#8

theorem loadRegs (x : Nibble) : Statement (.loadRegs x) := of_x 0xF#4 x 0x65#8

end Sys2Proof.Laws.RowMatch
end

