-- ==== Sys2Proof/Laws/Step.lean ====
section
/-! SUPPORT. What a step can answer, and the state it leaves. -/

namespace Sys2Proof.Machine

variable {s t : State}

/-- The phases around the instruction read nothing that the sample writes. -/
@[simp] theorem sample_fetch (s : State) : s.sample.fetch = s.fetch := rfl

@[simp] theorem sample_fetchOk (s : State) : s.sample.fetchOk = s.fetchOk := rfl

@[simp] theorem sample_fetchFault (s : State) : s.sample.fetchFault = s.fetchFault := rfl

theorem fetchOk_iff : s.fetchOk = true ↔ s.pc.toNat + 1 ≤ 0xFFF := by simp [State.fetchOk]; omega

theorem fetch_toNat (s : State) :
    s.fetch.toNat = (s.mem.read s.pc.toNat).toNat * 256 + (s.mem.read (s.pc.toNat + 1)).toNat := wordOfBytes_toNat _ _

/-- A step in range, on a word that is an instruction. -/
theorem step_of_decode {i : Instr} (h : s.fetchOk = true) (hd : decode s.fetch = some i) :
    step s = finish s.fetch (exec i s.sample) := by
  simp only [step, stepSampled, sample_fetchOk, h, if_true, sample_fetch, hd]

/-- A step in range, on a word that is no instruction. -/
theorem step_of_unmatched (h : s.fetchOk = true) (hd : decode s.fetch = none) :
    step s = .refused (.unimplemented s.fetch) := by
  simp only [step, stepSampled, sample_fetchOk, h, if_true, sample_fetch, hd]

/-- A step out of range. -/
theorem step_of_fetchFault (h : s.fetchOk = false) : step s = .fault s.fetchFault := by
  simp [step, stepSampled, h]

@[simp] theorem finish_next (w : Word) (u : State) : finish w (.next u) = .next u.tick := rfl

@[simp] theorem finish_fault (w : Word) (f : Fault) : finish w (.fault f) = .fault (f.withOpcode w) := rfl

/-- A step answers a next state only by completing the instruction at PC, then ticking. -/
theorem step_next_iff : step s = .next t ↔
    s.fetchOk = true ∧ ∃ i u, decode s.fetch = some i ∧ exec i s.sample = .next u ∧ t = u.tick := by
  cases hf : s.fetchOk
  · simp [step_of_fetchFault hf]
  · cases hd : decode s.fetch with
    | none => simp [step_of_unmatched hf hd]
    | some i =>
      rw [step_of_decode hf hd]
      cases he : exec i s.sample with
      | next u => simp [he, eq_comm]
      | fault f => simp [he]
      | refused r => exact absurd he (exec_ne_refused _ _ _)

/-- A step is fatal only by its fetch or by the check of the instruction at PC. -/
theorem step_fault_iff {f : Fault} : step s = .fault f ↔
    (s.fetchOk = false ∧ f = s.fetchFault) ∨
    (s.fetchOk = true ∧ ∃ i, decode s.fetch = some i ∧ instrOk s.sample i = false ∧
      f = (instrFault s.sample i).withOpcode s.fetch) := by
  cases hf : s.fetchOk
  · simp [step_of_fetchFault hf, @eq_comm _ f]
  · cases hd : decode s.fetch with
    | none => simp [step_of_unmatched hf hd]
    | some i =>
      rw [step_of_decode hf hd]
      obtain ⟨u, hu⟩ := exec_eq_check i s.sample
      rw [hu]
      cases hc : instrOk s.sample i <;> simp [hc, @eq_comm _ f]

/-- A step is refused only where the word at PC is no instruction. -/
theorem step_refused_iff {r : Refusal} : step s = .refused r ↔
    s.fetchOk = true ∧ decode s.fetch = none ∧ r = .unimplemented s.fetch := by
  cases hf : s.fetchOk
  · simp [step_of_fetchFault hf]
  · cases hd : decode s.fetch with
    | none => simp [step_of_unmatched hf hd, @eq_comm _ r]
    | some i =>
      rw [step_of_decode hf hd]
      obtain ⟨u, hu⟩ := exec_eq_check i s.sample
      rw [hu]
      cases instrOk s.sample i <;> simp

/-- A step answers a next state, a fatal error or an unimplemented word. -/
theorem step_trichotomy (s : State) :
    (∃ t, step s = .next t) ∨ (∃ f, step s = .fault f) ∨ ∃ w, step s = .refused (.unimplemented w) := by
  rcases h : step s with t | f | r
  · exact .inl ⟨t, rfl⟩
  · exact .inr (.inl ⟨f, rfl⟩)
  · obtain ⟨-, -, rfl⟩ := step_refused_iff.1 h
    exact .inr (.inr ⟨_, rfl⟩)

theorem stateAfter_next (h : step s = .next t) : stateAfter s = t := by simp [stateAfter, h, State.left]

theorem stateAfter_fault {f : Fault} (h : step s = .fault f) : stateAfter s = s.sample.setStatus (.fatal f) := by
  simp [stateAfter, h, State.left]

theorem stateAfter_refused {w : Word} (h : step s = .refused (.unimplemented w)) :
    stateAfter s = s.sample.setStatus (.unimplemented w) := by simp [stateAfter, h, State.left]

end Sys2Proof.Machine
end

