-- ==== Sys2Proof/Tests/Slice0.lean ====
section
/-! SUPPORT. Tests of one step each, from the vectors of 95_test_vectors.md (its ids stand in the comments), words written
out from the patterns of 30_encoding.md R74, and for each obligation a state that meets its hypotheses. -/

namespace Sys2Proof.Tests

open Sys2Proof.Machine

/-! ### Building small states -/

/-- The state after reset with the word w at 0x200, and one step's input with no key pressed and rand_in 0. -/
def prog (w : Nat) : State := { State.reset.withFetchWord 16 w with inputs := [⟨0, 0⟩] }

/-- s with the register x at b. -/
def withV (x : Nibble) (b : Byte) (s : State) : State := s.setReg x b

/-- s with bytes stored from address a. -/
def withMem (a : Nat) (bs : List Byte) (s : State) : State := s.setMem (s.mem.store a bs)

/-- s with the inputs of its next step. -/
def withIn (keysIn : BitVec 16) (randIn : Byte) (s : State) : State := { s with inputs := [⟨keysIn, randIn⟩] }

/-- The next state of an answer. -/
def nextOf : Answer → Option State
  | .next t => some t
  | _ => none

/-- The fatal error of an answer. -/
def faultOf : Answer → Option Fault
  | .fault f => some f
  | _ => none

/-- The refusal of an answer. -/
def refusalOf : Answer → Option Refusal
  | .refused r => some r
  | _ => none

theorem eq_next {a : Answer} {t : State} (h : nextOf a = some t) : a = .next t := by
  cases a <;> simp_all [nextOf]

theorem exists_next {a : Answer} (h : (nextOf a).isSome = true) : ∃ t, a = .next t := by
  cases a with
  | next t => exact ⟨t, rfl⟩
  | _ => simp [nextOf] at h

theorem eq_fault {a : Answer} {f : Fault} (h : faultOf a = some f) : a = .fault f := by
  cases a <;> simp_all [faultOf]

theorem eq_refused {a : Answer} {r : Refusal} (h : refusalOf a = some r) : a = .refused r := by
  cases a <;> simp_all [refusalOf]

/-! ### WellFormed: what it refuses -/

/-- An image of 3584 bytes is accepted, one of 3585 refused (R201). -/
theorem test_image_length : imageWellFormed (List.replicate 3584 0) = true ∧ imageWellFormed (List.replicate 3585 0) = false := by
  simp only [imageWellFormed, List.length_replicate]; decide

/-! ### Decoding: words written out from R74's patterns, every constructor -/

theorem test_decode_flow :
    decode 0x00EE = some .ret ∧ decode 0x1ABC = some (.jp 0xABC) ∧ decode 0x2345 = some (.call 0x345) ∧
    decode 0xBFFE = some (.jpV0 0xFFE) := by decide

theorem test_decode_skip :
    decode 0x3342 = some (.seImm 3 0x42) ∧ decode 0x4F80 = some (.sneImm 15 0x80) ∧ decode 0x5120 = some (.seReg 1 2) ∧
    decode 0x9AB0 = some (.sneReg 10 11) := by decide

theorem test_decode_load_immediate :
    decode 0x6A7B = some (.ldImm 10 0x7B) ∧ decode 0x73FF = some (.addImm 3 0xFF) ∧ decode 0xC30F = some (.rnd 3 0x0F) := by
  decide

theorem test_decode_alu :
    decode 0x8120 = some (.ldReg 1 2) ∧ decode 0x8121 = some (.orReg 1 2) ∧ decode 0x8122 = some (.andReg 1 2) ∧
    decode 0x8123 = some (.xorReg 1 2) ∧ decode 0x8124 = some (.addReg 1 2) ∧ decode 0x8125 = some (.subReg 1 2) ∧
    decode 0x8126 = some (.shr 1 2) ∧ decode 0x8127 = some (.subnReg 1 2) ∧ decode 0x812E = some (.shl 1 2) := by decide

theorem test_decode_index :
    decode 0xA300 = some (.ldI 0x300) ∧ decode 0xF21E = some (.addI 2) ∧ decode 0xFA29 = some (.ldF 10) ∧
    decode 0xF533 = some (.ldB 5) ∧ decode 0xF155 = some (.storeRegs 1) ∧ decode 0xF265 = some (.loadRegs 2) := by decide

theorem test_decode_display : decode 0x00E0 = some .cls ∧ decode 0xD125 = some (.drw 1 2 5) := by decide

theorem test_decode_key_timer :
    decode 0xE59E = some (.skp 5) ∧ decode 0xE5A1 = some (.sknp 5) ∧ decode 0xF107 = some (.ldVxDt 1) ∧
    decode 0xF20A = some (.ldVxK 2) ∧ decode 0xF015 = some (.ldDtVx 0) ∧ decode 0xF018 = some (.ldStVx 0) := by decide

/-- E12, S8 to S12: words that match no row. -/
theorem test_decode_rejects :
    decode 0x5001 = none ∧ decode 0x0123 = none ∧ decode 0x01E0 = none ∧ decode 0x9AB1 = none ∧ decode 0x8128 = none ∧
    decode 0x812F = none ∧ decode 0xE19F = none ∧ decode 0xF100 = none ∧ decode 0xF1FF = none := by decide

/-- The byte decoder takes two bytes, first byte high, and says why it refuses. -/
theorem test_decode_bytes :
    decodeBytes [0x12, 0x34, 0xAB] = .ok (.jp 0x234, [0xAB]) ∧ decodeBytes [0x50, 0x01] = .error (.unimplemented 0x5001) ∧
    decodeBytes [0x12] = .error .truncated := ⟨rfl, rfl, rfl⟩

/-- The opcode table's numbering: bit 0 is the word's least significant bit. -/
theorem test_decode_table_word : decodeTableWord 16 0xD125 = some (.drw 1 2 5) ∧ decodeTableWord 16 0x5001 = none := by decide

/-! ### The step -/

/-- S1: the fetch is big-endian. -/
theorem test_fetch_big_endian : (stateAfter (withMem 0x200 [0x12, 0x34] (prog 0))).pc = 0x234 := by decide

/-- S2: PC = 0xFFE is fetched, and PC goes to 0x1000. -/
theorem test_fetch_last_word :
    (stateAfter (withMem 0xFFE [0x60, 0x01] { prog 0 with pc := 0xFFE })).pc = 0x1000 ∧
    (stateAfter (withMem 0xFFE [0x60, 0x01] { prog 0 with pc := 0xFFE })).reg 0 = 1 := by decide

/-- S3, S4: a fetch out of range. -/
theorem test_fetch_fatal :
    faultOf (step { prog 0 with pc := 0xFFF }) = some (.fetch 0xFFF 0x1000) ∧
    faultOf (step { prog 0 with pc := 0x1000 }) = some (.fetch 0x1000 0x1000) := by decide

/-- S5: an odd PC. -/
theorem test_fetch_odd : (stateAfter (withMem 0x201 [0x61, 0x07] { prog 0 with pc := 0x201 })).reg 1 = 7 := by decide

/-- S6: an unimplemented word does not tick. -/
theorem test_unimplemented :
    refusalOf (step { prog 0x5001 with dt := 3, st := 2 }) = some (.unimplemented 0x5001) ∧
    (stateAfter { prog 0x5001 with dt := 3, st := 2 }).dt = 3 ∧ (stateAfter { prog 0x5001 with dt := 3, st := 2 }).pc = 0x200 := by
  decide

/-- S7: both timers tick, and ST beeps. -/
theorem test_tick :
    (stateAfter { prog 0x6000 with dt := 3, st := 2 }).dt = 2 ∧ (stateAfter { prog 0x6000 with dt := 3, st := 2 }).st = 1 ∧
    (stateAfter { prog 0x6000 with dt := 3, st := 2 }).beep = true := by decide

/-- S13: the key sample stands in an unimplemented step. -/
theorem test_key_sample : (stateAfter (withIn 1 0 (prog 0))).keyDown 0 = true := by decide

/-! ### Flow -/

/-- F6: RET past the call; the slot keeps its value. -/
theorem test_ret :
    (stateAfter { prog 0x00EE with sp := 1, stack := State.reset.stack.set 0 0x204 }).pc = 0x206 ∧
    (stateAfter { prog 0x00EE with sp := 1, stack := State.reset.stack.set 0 0x204 }).stack[0] = 0x204 := by decide

/-- F7: underflow. -/
theorem test_ret_underflow : faultOf (step (prog 0x00EE)) = some (.stackUnderflow 0x200 (some 0x00EE) 0) := by decide

/-- F1 -/
theorem test_jp : (stateAfter (prog 0x1ABC)).pc = 0xABC := by decide

/-- F4: the sixteenth call. -/
theorem test_call :
    (stateAfter { prog 0x2345 with sp := 15 }).sp = 16 ∧ (stateAfter { prog 0x2345 with sp := 15 }).stack[15] = 0x200 ∧
    (stateAfter { prog 0x2345 with sp := 15 }).pc = 0x345 := by decide

/-- F5: the seventeenth. -/
theorem test_call_overflow :
    faultOf (step { prog 0x2345 with sp := 16 }) = some (.stackOverflow 0x200 (some 0x2345) 16) := by decide

/-- F10: no wrap at 12 bits. -/
theorem test_jpV0 : (stateAfter (withV 0 0xFF (prog 0xBFFF))).pc = 0x10FE := by decide

/-! ### Skips -/

/-- K1, K2 -/
theorem test_seImm :
    (stateAfter (withV 3 0x42 (prog 0x3342))).pc = 0x204 ∧ (stateAfter (withV 3 0x41 (prog 0x3342))).pc = 0x202 := by decide

/-- K3, K4 -/
theorem test_sneImm :
    (stateAfter (withV 3 0x42 (prog 0x4342))).pc = 0x202 ∧ (stateAfter (prog 0x4342)).pc = 0x204 := by decide

/-- K5, K6 -/
theorem test_seReg :
    (stateAfter (withV 1 7 (withV 2 7 (prog 0x5120)))).pc = 0x204 ∧
    (stateAfter (withV 1 7 (withV 2 8 (prog 0x5120)))).pc = 0x202 := by decide

/-- K8, K9 -/
theorem test_sneReg :
    (stateAfter (withV 1 7 (withV 2 8 (prog 0x9120)))).pc = 0x204 ∧ (stateAfter (prog 0x9550)).pc = 0x202 := by decide

/-! ### Register loads and arithmetic -/

/-- A1 -/
theorem test_ldImm : (stateAfter (prog 0x6AFF)).reg 10 = 0xFF := by decide

/-- A3: a wrap without a flag. -/
theorem test_addImm :
    (stateAfter (withV 2 0x80 (withV 15 1 (prog 0x7280)))).reg 2 = 0 ∧
    (stateAfter (withV 2 0x80 (withV 15 1 (prog 0x7280)))).reg 15 = 1 := by decide

/-- A4 -/
theorem test_ldReg : (stateAfter (withV 1 0x12 (withV 2 0x34 (prog 0x8120)))).reg 1 = 0x34 := by decide

/-- A5 -/
theorem test_or :
    (stateAfter (withV 1 0x0F (withV 2 0xF0 (withV 15 1 (prog 0x8121))))).reg 1 = 0xFF ∧
    (stateAfter (withV 1 0x0F (withV 2 0xF0 (withV 15 1 (prog 0x8121))))).reg 15 = 1 := by decide

/-- A6 -/
theorem test_and : (stateAfter (withV 1 0x3C (withV 2 0x0F (prog 0x8122)))).reg 1 = 0x0C := by decide

/-- A7 -/
theorem test_xor : (stateAfter (withV 1 0xFF (withV 2 0x0F (prog 0x8123)))).reg 1 = 0xF0 := by decide

/-- A8 -/
theorem test_addReg :
    (stateAfter (withV 1 0x80 (withV 2 0x80 (prog 0x8124)))).reg 1 = 0 ∧
    (stateAfter (withV 1 0x80 (withV 2 0x80 (prog 0x8124)))).reg 15 = 1 := by decide

/-- A10, A11: X = F, then also Y = F. -/
theorem test_addReg_vf :
    (stateAfter (withV 15 0x90 (withV 2 0x80 (prog 0x8F24)))).reg 15 = 0x81 ∧
    (stateAfter (withV 15 0x80 (prog 0x8FF4))).reg 15 = 2 := by decide

/-- A13 -/
theorem test_sub :
    (stateAfter (withV 1 3 (withV 2 5 (prog 0x8125)))).reg 1 = 0xFE ∧
    (stateAfter (withV 1 3 (withV 2 5 (prog 0x8125)))).reg 15 = 0 := by decide

/-- A14, A15 -/
theorem test_sub_equal :
    (stateAfter (withV 1 5 (withV 2 5 (prog 0x8125)))).reg 15 = 1 ∧ (stateAfter (withV 15 0x33 (prog 0x8FF5))).reg 15 = 0 := by
  decide

/-- A18: VY is not read. -/
theorem test_shr :
    (stateAfter (withV 1 0xFE (withV 2 1 (prog 0x8126)))).reg 1 = 0x7F ∧
    (stateAfter (withV 1 0xFE (withV 2 1 (prog 0x8126)))).reg 15 = 0 := by decide

/-- A17, A19 -/
theorem test_shr_flag :
    (stateAfter (withV 1 0xFF (prog 0x8106))).reg 15 = 1 ∧ (stateAfter (withV 15 3 (prog 0x8F06))).reg 15 = 0 := by decide

/-- A21 -/
theorem test_subn :
    (stateAfter (withV 1 5 (withV 2 3 (prog 0x8127)))).reg 1 = 0xFE ∧
    (stateAfter (withV 1 5 (withV 2 3 (prog 0x8127)))).reg 15 = 0 := by decide

/-- A22 -/
theorem test_subn_vf : (stateAfter (withV 15 2 (withV 2 5 (prog 0x8F27)))).reg 15 = 4 := by decide

/-- A23 -/
theorem test_shl :
    (stateAfter (withV 1 0x81 (prog 0x810E))).reg 1 = 2 ∧ (stateAfter (withV 1 0x81 (prog 0x810E))).reg 15 = 1 := by decide

/-- A25, A26 -/
theorem test_shl_vf :
    (stateAfter (withV 15 0x80 (prog 0x8F0E))).reg 15 = 2 ∧ (stateAfter (withV 15 0x7F (prog 0x8F0E))).reg 15 = 0 := by decide

/-- A27, A29 -/
theorem test_rnd :
    (stateAfter (withIn 0 0xB7 (prog 0xC30F))).reg 3 = 7 ∧ (stateAfter (withIn 0 0xB7 (prog 0xC3FF))).reg 3 = 0xB7 := by decide

/-! ### Index register and memory -/

/-- M1 -/
theorem test_ldI : (stateAfter (prog 0xAFFF)).i = 0xFFF := by decide

/-- M3, M4 -/
theorem test_addI :
    (stateAfter (withV 1 0x10 { prog 0xF11E with i := 0xFF0 })).i = 0x1000 ∧
    (stateAfter (withV 1 0x10 { prog 0xF11E with i := 0xFF0 })).reg 15 = 1 ∧
    (stateAfter (withV 1 2 { prog 0xF11E with i := 0xFFFF })).i = 1 := by decide

/-- M5, M6: X = F. -/
theorem test_addI_vf :
    (stateAfter (withV 15 5 { prog 0xFF1E with i := 0x100 })).i = 0x100 ∧
    (stateAfter (withV 15 1 { prog 0xFF1E with i := 0xFFF })).i = 0x1000 := by decide

/-- M8: all 8 bits of VX. -/
theorem test_ldF : (stateAfter (withV 2 0xFF (prog 0xF229))).i = 0x4FB := by decide

/-- E7: digits in order, I and PC. -/
theorem test_ldB :
    (stateAfter (withV 5 123 { prog 0xF533 with i := 0x300 })).mem.load 0x300 3 = [1, 2, 3] ∧
    (stateAfter (withV 5 123 { prog 0xF533 with i := 0x300 })).i = 0x300 ∧
    (stateAfter (withV 5 123 { prog 0xF533 with i := 0x300 })).pc = 0x202 := by decide

/-- M11, M12: the last place, and one past it. -/
theorem test_ldB_edge :
    (stateAfter (withV 5 7 { prog 0xF533 with i := 0xFFD })).mem.read 0xFFF = 7 ∧
    faultOf (step (withV 5 7 { prog 0xF533 with i := 0xFFE })) = some (.data 0x200 (some 0xF533) 0x1000) := by decide

/-- The example of R144. -/
theorem test_storeRegs :
    (stateAfter (withV 0 1 (withV 1 2 { prog 0xF155 with i := 0x300 }))).mem.load 0x300 3 = [1, 2, 0] ∧
    (stateAfter (withV 0 1 (withV 1 2 { prog 0xF155 with i := 0x300 }))).i = 0x302 := by decide

/-- M16, M19 -/
theorem test_storeRegs_fatal :
    faultOf (step { prog 0xFF55 with i := 0xFF1 }) = some (.data 0x200 (some 0xFF55) 0x1000) ∧
    faultOf (step { prog 0xF055 with i := 0x1234 }) = some (.data 0x200 (some 0xF055) 0x1234) := by decide

/-- The example of R145. -/
theorem test_loadRegs :
    (stateAfter (withMem 0x300 [1, 2, 3, 4] { prog 0xF265 with i := 0x300 })).reg 2 = 3 ∧
    (stateAfter (withMem 0x300 [1, 2, 3, 4] { prog 0xF265 with i := 0x300 })).reg 3 = 0 ∧
    (stateAfter (withMem 0x300 [1, 2, 3, 4] { prog 0xF265 with i := 0x300 })).i = 0x303 := by decide

/-- M18 -/
theorem test_loadRegs_fatal :
    faultOf (step { prog 0xF065 with i := 0x1000 }) = some (.data 0x200 (some 0xF065) 0x1000) := by decide

/-! ### Display -/

/-- D1 -/
theorem test_cls : (stateAfter { prog 0x00E0 with fb := 0x3FF }).fb = 0 := by decide +kernel

/-- D4: the part of a row past x = 63 is clipped. -/
theorem test_drw_clip :
    (stateAfter (withV 0 60 (withMem 0x300 [0xFF] { prog 0xD011 with i := 0x300 }))).fb = 0xF000000000000000 ∧
    (stateAfter (withV 0 60 (withMem 0x300 [0xFF] { prog 0xD011 with i := 0x300 }))).reg 15 = 0 := by decide +kernel

/-- D12: one cell on, one off, and the collision. -/
theorem test_drw_collision :
    (stateAfter (withMem 0x300 [0xC0] { prog 0xD011 with i := 0x300, fb := 2 })).fb = 1 ∧
    (stateAfter (withMem 0x300 [0xC0] { prog 0xD011 with i := 0x300, fb := 2 })).reg 15 = 1 := by decide +kernel

/-! ### Keys and timers -/

/-- T1, T5 -/
theorem test_skp :
    (stateAfter (withIn 0x400 0 (withV 1 10 (prog 0xE19E)))).pc = 0x204 ∧
    faultOf (step (withV 1 16 (prog 0xE19E))) = some (.keyIndex 0x200 (some 0xE19E) 16) := by decide

/-- T3, T6 -/
theorem test_sknp :
    (stateAfter (withIn 0x400 0 (withV 1 10 (prog 0xE1A1)))).pc = 0x202 ∧
    faultOf (step (withV 1 0xFF (prog 0xE1A1))) = some (.keyIndex 0x200 (some 0xE1A1) 0xFF) := by decide

/-- T7: read before the tick. -/
theorem test_ldVxDt :
    (stateAfter { prog 0xF307 with dt := 7 }).reg 3 = 7 ∧ (stateAfter { prog 0xF307 with dt := 7 }).dt = 6 := by decide

/-- E9: the lower of keys 5 and 9. -/
theorem test_ldVxK :
    (stateAfter (withIn 0x0220 0 (prog 0xF20A))).reg 2 = 5 ∧ (stateAfter (withIn 0x0220 0 (prog 0xF20A))).pc = 0x202 := by decide

/-- T11: waiting ticks. -/
theorem test_ldVxK_waiting :
    (stateAfter { prog 0xF30A with dt := 2, st := 1 }).status = .waiting ∧
    (stateAfter { prog 0xF30A with dt := 2, st := 1 }).pc = 0x200 ∧ (stateAfter { prog 0xF30A with dt := 2, st := 1 }).dt = 1 ∧
    (stateAfter { prog 0xF30A with dt := 2, st := 1 }).beep = true := by decide

/-- T13 -/
theorem test_ldDtVx : (stateAfter (withV 4 5 (prog 0xF415))).dt = 4 := by decide

/-- T16, T17 -/
theorem test_ldStVx :
    (stateAfter (withV 4 1 (prog 0xF418))).beep = true ∧ (stateAfter (withV 4 1 (prog 0xF418))).st = 0 ∧
    (stateAfter { prog 0xF418 with st := 5 }).beep = false := by decide

/-! ### Load -/

/-- E1, L-4: what load writes and what it keeps, with the default FONT (log entry 7). -/
theorem test_load :
    ((withV 1 5 { prog 0 with i := 0x300, dt := 9, sp := 3 }).load Config.defaultFont [0x00, 0xE0]).2.mem.load 0x1FF 4 =
      [0x00, 0x00, 0xE0, 0x00] ∧
    ((withV 1 5 { prog 0 with i := 0x300, dt := 9, sp := 3 }).load Config.defaultFont [0x00, 0xE0]).2.mem.load 0x4E 3 =
      [0x80, 0x80, 0x00] ∧
    ((withV 1 5 { prog 0 with i := 0x300, dt := 9, sp := 3 }).load Config.defaultFont [0x00, 0xE0]).2.reg 1 = 5 ∧
    ((withV 1 5 { prog 0 with i := 0x300, dt := 9, sp := 3 }).load Config.defaultFont [0x00, 0xE0]).2.dt = 0 := by decide

/-! ### For each obligation, a state and operands that meet its hypotheses, clause by clause -/

theorem witness_DecodeOfEncodedBytesGivesInstr : (Instr.drw 1 2 5).wellFormed = true := rfl

theorem witness_EncodeOfDecodedGivesWord : decode 0x8F26 = some (.shr 15 2) := by decide

theorem witness_DecodeFollowsOpcodeMap :
    decode 0x8F26 = some (.shr 15 2) ∧ (opcodeRow (.shr 0 0)).selects 0x8F26 = true := by decide

/-- One word of each class. -/
theorem witness_UnimplementedWordsAreTheSixClasses :
    (fieldOp 0x0123 = 0x0#4 ∧ (0x0123 : Word) ≠ 0x00E0#16 ∧ (0x0123 : Word) ≠ 0x00EE#16) ∧
    (fieldOp 0x5001 = 0x5#4 ∧ fieldN 0x5001 ≠ 0#4) ∧ (fieldOp 0x812F = 0x8#4 ∧ fieldN 0x812F = 0xF#4) ∧
    (fieldOp 0x9AB1 = 0x9#4 ∧ fieldN 0x9AB1 ≠ 0#4) ∧ (fieldOp 0xE19F = 0xE#4 ∧ fieldNN 0xE19F = 0x9F#8) ∧
    (fieldOp 0xF1FF = 0xF#4 ∧ fieldNN 0xF1FF = 0xFF#8) := by decide

/-- The last word of the memory. -/
theorem witness_StepRunsTheDecodedInstruction : ∃ (s : State) (w : Word) (i : Instr), s.pc.toNat + 1 = 0xFFF ∧
    w.toNat = (s.mem.read s.pc.toNat).toNat * 256 + (s.mem.read (s.pc.toNat + 1)).toNat ∧ decode w = some i :=
  ⟨withMem 0xFFE [0x60, 0x01] { prog 0 with pc := 0xFFE }, 0x6001, .ldImm 0 1, by decide, by decide, by decide⟩

/-- The three outcomes of StepRunsTheDecodedInstruction and of the step statements. -/
theorem witness_stepOutcomes :
    (∃ t, step (prog 0x6000) = .next t) ∧ (∃ f, step (prog 0x00EE) = .fault f) ∧
    (∃ w, step (prog 0x5001) = .refused (.unimplemented w)) :=
  ⟨exists_next (by decide), ⟨.stackUnderflow 0x200 (some 0x00EE) 0, eq_fault (by decide)⟩,
    ⟨0x5001, eq_refused (by decide)⟩⟩

theorem witness_KeySampleStandsInEveryOutcome :
    (∃ input rest, (prog 0x6000).inputs = input :: rest) ∧ State.reset.inputs = [] := ⟨⟨_, _, rfl⟩, rfl⟩

theorem witness_TimersTickOnceInCompletedSteps :
    (∃ t, step (prog 0x6000) = .next t) ∧ ∀ t, step (prog 0x00EE) ≠ .next t :=
  ⟨exists_next (by decide), fun t h => by have := congrArg nextOf h; simp [nextOf, step_of_decode (s := prog 0x00EE)
    (i := .ret) (by decide) (by decide), show (exec .ret (prog 0x00EE).sample) = .fault (.stackUnderflow 0x200 none 0) from rfl] at this⟩

/-- Two steps of a jump to itself. -/
theorem witness_DelayTimerCountsDownOverSteps : ∃ run : Nat → State,
    ∀ k < 2, step (run k) = .next (run (k + 1)) ∧ ∀ x, decode (run k).sample.fetch ≠ some (.ldDtVx x) := by
  let s : State := { prog 0x1200 with dt := 5 }
  have h0 : (nextOf (step s)).isSome = true ∧ decode s.fetch = some (.jp 0x200) := by decide
  have h1 : (nextOf (step (stateAfter s))).isSome = true ∧ decode (stateAfter s).fetch = some (.jp 0x200) := by decide
  obtain ⟨t, ht⟩ := exists_next h0.1
  obtain ⟨u, hu⟩ := exists_next h1.1
  rw [stateAfter_next ht] at h1 hu
  refine ⟨fun k => match k with | 0 => s | 1 => t | _ => u, fun k hk => ?_⟩
  match k, hk with
  | 0, _ => exact ⟨ht, fun x => by show decode s.fetch ≠ _; rw [h0.2]; simp⟩
  | 1, _ => exact ⟨hu, fun x => by show decode t.fetch ≠ _; rw [h1.2]; simp⟩

theorem witness_SampleAndTickWriteOnlyTheirParts : ∃ s t u : State, t = s.sample ∧ u = s.tick := ⟨State.reset, _, _, rfl, rfl⟩

/-- The three kinds of address: PC + 1 alone out of range, PC out of range, PC at the top of 16 bits. -/
theorem witness_FetchOutOfRangeIsFatal : 0xFFF < (0xFFF#16).toNat + 1 ∧ 0xFFF < (0x1000#16).toNat + 1 ∧
    0xFFF < (0xFFFF#16).toNat + 1 ∧ ¬ 0xFFF < (0xFFE#16).toNat + 1 := by decide

theorem witness_FatalStepLeavesStateAsItWas : ∃ s f, step s = .fault f :=
  ⟨prog 0x00EE, .stackUnderflow 0x200 (some 0x00EE) 0, eq_fault (by decide)⟩

theorem witness_UnimplementedWordChangesNothing :
    (prog 0x5001).pc.toNat + 1 ≤ 0xFFF ∧ decode (prog 0x5001).fetch = none := by decide

theorem witness_ErrorsPersistOverLaterSteps :
    (∃ f, step (prog 0x00EE) = .fault f) ∧ (∃ w, step (prog 0x5001) = .refused (.unimplemented w)) :=
  ⟨witness_stepOutcomes.2.1, witness_stepOutcomes.2.2⟩

/-- Each cause at its boundary, and the value next to it that completes. -/
theorem witness_FatalCausesAreExactlyTheListed :
    (faultOf (step { prog 0xD011 with i := 0x1000 })).isSome = true ∧
    (nextOf (step { prog 0xD011 with i := 0xFFF })).isSome = true ∧
    (nextOf (step { prog 0xD010 with i := 0xFFFF })).isSome = true ∧
    (faultOf (step { prog 0xF533 with i := 0xFFE })).isSome = true ∧
    (nextOf (step { prog 0xF533 with i := 0xFFD })).isSome = true ∧
    (faultOf (step { prog 0xFF55 with i := 0xFF1 })).isSome = true ∧
    (nextOf (step { prog 0xFF55 with i := 0xFF0 })).isSome = true ∧
    (faultOf (step { prog 0xF065 with i := 0x1000 })).isSome = true ∧
    (nextOf (step { prog 0xF065 with i := 0xFFF })).isSome = true ∧
    (faultOf (step (withV 1 16 (prog 0xE19E)))).isSome = true ∧
    (nextOf (step (withV 1 15 (prog 0xE19E)))).isSome = true ∧
    (faultOf (step (withV 1 16 (prog 0xE1A1)))).isSome = true ∧
    (nextOf (step (withV 1 15 (prog 0xE1A1)))).isSome = true := by decide

theorem witness_InstructionsWriteOnlyTheirFootprint : ∃ t, exec (.storeRegs 3) State.reset = .next t :=
  exists_next (by decide)

theorem witness_OnlyCallAndReturnMoveSP :
    (∃ t, step (prog 0x6000) = .next t) ∧ (∃ t, step (prog 0x2345) = .next t) ∧
    ∃ t, step { prog 0x00EE with sp := 1 } = .next t :=
  ⟨exists_next (by decide), exists_next (by decide), exists_next (by decide)⟩

theorem witness_InputsSeenOnlyByTheirInstructions :
    (∀ x nn, Instr.cls ≠ .rnd x nn) ∧ (∀ x, Instr.cls ≠ .skp x ∧ Instr.cls ≠ .sknp x ∧ Instr.cls ≠ .ldVxK x) ∧
    (∃ t, exec .cls State.reset = .next t) ∧ ∃ f, exec .ret State.reset = .fault f :=
  ⟨by simp, by simp, exists_next (by decide), ⟨.stackUnderflow 0x200 none 0, eq_fault (by decide)⟩⟩

/-- FX55 with X = 1 over the bytes at 0x300, and a later fetch there. -/
theorem witness_LaterFetchSeesStoredRegisters : ∃ (s t u : State), s.mem.wf ∧ exec (.storeRegs 1) s = .next t ∧
    (1#4).toNat = (0#4).toNat + 1 ∧ (1#4).toNat ≤ (1#4).toNat ∧ u.mem = t.mem ∧ u.pc.toNat = s.i.toNat + (0#4).toNat := by
  obtain ⟨t, ht⟩ := exists_next (a := exec (.storeRegs 1) { State.reset with i := 0x300 }) (by decide)
  exact ⟨_, t, { t with pc := 0x300 }, Memory.wf_nil, ht, by decide, by decide, rfl, rfl⟩

/-- States under the invariant for each outcome, and one with a live stack slot at the bound. -/
theorem witness_Inv : Inv (prog 0x6000) ∧ Inv (prog 0x00EE) ∧ Inv (prog 0x5001) ∧
    Inv { State.reset with sp := 1, stack := State.reset.stack.set 0 0xFFE, pc := 0x10FE } :=
  ⟨⟨by decide, by decide, by decide⟩, ⟨by decide, by decide, by decide⟩, ⟨by decide, by decide, by decide⟩,
    ⟨by decide, by decide, by decide⟩⟩

theorem witness_EqualBytesMeanEqualMemory : Memory.wf [(0x200, 0x60)] ∧ Memory.wf [] := by decide

/-- The longest image, and the shortest that is too long. -/
theorem witness_LoadPlacesImageAndFont : State.reset.mem.wf ∧ (List.replicate 3584 (0 : Byte)).length ≤ 3584 ∧
    3584 < (List.replicate 3585 (0 : Byte)).length := by
  refine ⟨Memory.wf_nil, ?_, ?_⟩ <;> simp only [List.length_replicate] <;> decide

theorem witness_LoadKeepsWhatItDoesNotName : ∃ t, State.reset.load Config.defaultFont [0x12, 0x00] = (.loaded, t) :=
  ⟨_, rfl⟩

theorem witness_ZeroWordAtStartStaysUnimplemented : State.reset.pc.toNat = 0x200 ∧ State.reset.mem.read 0x200 = 0#8 ∧
    State.reset.mem.read 0x201 = 0#8 := by decide

/-- RET at SP 0, 1 and 16. -/
theorem witness_RetPopsAndGoesPastTheCall :
    (faultOf (exec .ret State.reset)).isSome = true ∧ (nextOf (exec .ret { State.reset with sp := 1 })).isSome = true ∧
    (nextOf (exec .ret { State.reset with sp := 16 })).isSome = true := by decide

/-- CALL at SP 0, 15 and 16. -/
theorem witness_CallPushesItsOwnAddress :
    (nextOf (exec (.call 0x345) State.reset)).isSome = true ∧
    (nextOf (exec (.call 0x345) { State.reset with sp := 15 })).isSome = true ∧
    (faultOf (exec (.call 0x345) { State.reset with sp := 16 })).isSome = true := by decide

/-- F10, F11: targets at 0xFFF and above. -/
theorem witness_JpV0AddsV0 : ∃ t u, exec (.jpV0 0xFFF) State.reset = .next t ∧ t.pc.toNat = 0xFFF ∧
    exec (.jpV0 0xFFF) (withV 0 0xFF State.reset) = .next u ∧ u.pc.toNat = 0x10FE :=
  ⟨_, _, rfl, by decide, rfl, by decide⟩

theorem witness_ReturnAfterCallResumesBehindIt : ∃ t, exec (.call 0x345) State.reset = .next t := exists_next (by decide)

/-- X = F and X other than F, for the rows that write VF and VX. -/
theorem witness_flagRows : (1#4 ≠ vf) ∧ (0xF#4 = vf) := by decide

/-- FX33 at I = 0xFFD and 0xFFE. -/
theorem witness_LdBStoresDecimalDigits : State.reset.mem.wf ∧ (0xFFD#16).toNat + 2 ≤ 0xFFF ∧ (0xFFE#16).toNat + 2 > 0xFFF := by
  decide

/-- FX55 and FX65 with X = F at I = 0xFF0 and 0xFF1, and with X = 0 at 0xFFF and 0x1000. -/
theorem witness_StoreRegsStoresAndAdvancesI : State.reset.mem.wf ∧ (0xFF0#16).toNat + (0xF#4).toNat ≤ 0xFFF ∧
    (0xFF1#16).toNat + (0xF#4).toNat > 0xFFF ∧ (0xFFF#16).toNat + (0#4).toNat ≤ 0xFFF ∧
    (0x1000#16).toNat + (0#4).toNat > 0xFFF := by decide

theorem witness_LoadRegsLoadsAndAdvancesI :
    (nextOf (exec (.loadRegs 15) { State.reset with i := 0xFF0 })).isSome = true ∧
    (faultOf (exec (.loadRegs 15) { State.reset with i := 0xFF1 })).isSome = true := by decide

theorem witness_StoreThenLoadGivesRegistersBack : ∃ s t u : State, s.mem.wf ∧ exec (.storeRegs 3) s = .next t ∧
    u.mem = t.mem ∧ u.i = s.i := by
  obtain ⟨t, ht⟩ := exists_next (a := exec (.storeRegs 3) { State.reset with i := 0x400 }) (by decide)
  exact ⟨_, t, { t with i := 0x400 }, Memory.wf_nil, ht, rfl, rfl⟩

/-- N = 0 at any I, one row at 0xFFF, one row at 0x1000; a cell under a set bit; a collision, and none. -/
theorem witness_DrwXorsClippedSpriteAndSetsCollision :
    ((0#4).toNat = 0) ∧ ((0xFFF#16).toNat + (1#4).toNat - 1 ≤ 0xFFF) ∧
    (1 ≤ (1#4).toNat ∧ (0x1000#16).toNat + (1#4).toNat - 1 > 0xFFF) ∧
    (withMem 0x300 [0x80] { State.reset with i := 0x300, fb := 1 }).spriteBit 0 1 1 0 0 ∧
    getCell (1#2048) 0 0 = true ∧ getCell (0#2048) 0 0 = false := by
  refine ⟨by decide, by decide, by decide, ?_, by decide +kernel, by decide +kernel⟩
  unfold State.spriteBit
  decide

theorem witness_SecondDrawRestoresTheScreen : ∃ s t u : State, exec (.drw 0 1 1) s = .next t ∧
    u.fb = t.fb ∧ u.mem = s.mem ∧ u.i = s.i ∧ u.reg 0 = s.reg 0 ∧ u.reg 1 = s.reg 1 ∧
    ∃ cx cy, cx < 64 ∧ cy < 32 ∧ getCell s.fb cx cy = false ∧ s.spriteBit 0 1 1 cx cy := by
  obtain ⟨t, ht⟩ := exists_next (a := exec (.drw 0 1 1) (withMem 0x300 [0x80] { State.reset with i := 0x300 })) (by decide)
  refine ⟨_, t, { (withMem 0x300 [0x80] { State.reset with i := 0x300 }) with fb := t.fb }, ht, rfl, rfl, rfl, rfl, rfl,
    0, 0, by decide, by decide, by decide +kernel, ?_⟩
  unfold State.spriteBit
  decide

/-- VX = 15 and VX = 16, the key pressed and not. -/
theorem witness_KeySkipsFollowTheSampledKey :
    ((withV 1 15 State.reset).reg 1).toNat < 16 ∧ 16 ≤ ((withV 1 16 State.reset).reg 1).toNat ∧
    { State.reset with keys := 0x8000 }.keys.getLsbD 15 = true ∧ State.reset.keys.getLsbD 15 = false := by decide

/-- Keys 5 and 9 pressed, the last key alone, and no key. -/
theorem witness_LdVxKTakesLowestKeyOrWaits :
    ({ State.reset with keys := 0x0220 }.keyDown 5 = true ∧ ∀ j < 5, { State.reset with keys := 0x0220 }.keyDown j = false) ∧
    ({ State.reset with keys := 0x8000 }.keyDown 15 = true ∧ ∀ j < 15, { State.reset with keys := 0x8000 }.keyDown j = false) ∧
    ∀ k < 16, State.reset.keyDown k = false := by decide

end Sys2Proof.Tests
end

/-! # Proofs: the failed outcomes of a step (40_step_cycle.md R93, R94) -/

namespace Sys2Proof.Proofs

open Sys2Proof.Machine

section SameCode

/-! Two states that agree on what the fetch reads: PC and the memory. -/

variable {s t : State} (hpc : t.pc = s.pc) (hmem : t.mem = s.mem)

include hpc in
theorem fetchOk_congr : t.fetchOk = s.fetchOk := by simp only [State.fetchOk, hpc]

include hpc hmem in
theorem fetch_congr : t.fetch = s.fetch := by simp only [State.fetch, hpc, hmem]

include hpc hmem in
/-- An unimplemented word is refused by PC and the memory alone, so any state with the same two refuses it too. -/
theorem step_refused_congr {r : Refusal} (h : step s = .refused r) : step t = .refused r := by
  rw [step_refused_iff, fetchOk_congr hpc, fetch_congr hpc hmem]
  exact step_refused_iff.1 h

end SameCode

/-- Settles O12: a fatal step leaves the sampled state with the error on `status`, and the sample writes none of the
elements R93 names. -/
theorem fatalStepLeavesStateAsItWas : Obligations.FatalStepLeavesStateAsItWas := by
  intro s f h t
  have ht : t = s.sample.setStatus (.fatal f) := stateAfter_fault h
  simp [ht]

/-- Settles O13: an unimplemented step leaves the sampled state with the word on `status`; PC and the memory are as before,
so the next step refuses the same word. -/
theorem unimplementedWordChangesNothing : Obligations.UnimplementedWordChangesNothing := by
  intro s hrange hd t
  have hs : step s = .refused (.unimplemented s.fetch) := step_of_unmatched (fetchOk_iff.2 hrange) hd
  have ht : t = s.sample.setStatus (.unimplemented s.fetch) := stateAfter_refused hs
  have hagain : step t = .refused (.unimplemented s.fetch) :=
    step_refused_congr (by simp [ht]) (by simp [ht]) hs
  refine ⟨hs, hagain, ?_⟩
  simp [ht]

end Sys2Proof.Proofs

/-! # Proofs: jumps, calls and returns (41_flow.md R100 to R103) -/

namespace Sys2Proof.Proofs

open Sys2Proof.Machine

/-! ### The four words decode (30_encoding.md R74) -/

theorem decode_jp (nnn : Addr12) : decode (0x1#4 ++ nnn) = some (.jp nnn) := by simp [decode]

theorem decode_call (nnn : Addr12) : decode (0x2#4 ++ nnn) = some (.call nnn) := by simp [decode]

theorem decode_jpV0 (nnn : Addr12) : decode (0xB#4 ++ nnn) = some (.jpV0 nnn) := by simp [decode]

section Flow

variable {s : State}

/-! ### What each instruction answers where it completes -/

theorem exec_jp (nnn : Addr12) (s : State) : exec (.jp nnn) s = .next (s.setPc (absolute nnn)) := rfl

theorem exec_jpV0 (nnn : Addr12) (s : State) :
    exec (.jpV0 nnn) s = .next (s.setPc (offsetTarget nnn (s.reg 0#4))) := rfl

theorem exec_ret_of_pos (h : 0 < s.sp.val) : exec .ret s = .next (s.pop.setPc (s.top + 2#16)) :=
  check_next_iff.2 ⟨decide_eq_true h, rfl⟩

theorem exec_call_of_lt (nnn : Addr12) (h : s.sp.val < 16) :
    exec (.call nnn) s = .next ((s.push s.pc).setPc (absolute nnn)) :=
  check_next_iff.2 ⟨decide_eq_true h, rfl⟩

/-! ### The stack slots -/

/-- The slot a return pops is the one below SP (R26). -/
theorem top_eq_slot {k : Fin 16} (h : k.val + 1 = s.sp.val) : s.top = s.stack[k] := by
  simp [State.top, ← h]

/-- A push writes slot SP and no other (R27). -/
theorem push_slot (h : s.sp.val < 16) (a : Word) (k : Fin 16) :
    (s.push a).stack[k] = if k.val = s.sp.val then a else s.stack[k] := by
  simp [State.push_stack s h, Vector.getElem_set, eq_comm]

/-! ### The fetch behind a far jump -/

/-- From PC = 0xFFF on, PC + 1 is outside the memory and the fetch fails: at 0xFFF by PC + 1 = 0x1000, above by PC (R57). -/
theorem step_of_pc_ge (h : 0xFFF ≤ s.pc.toNat) : step s = .fault (.fetch s.pc (max s.pc.toNat 0x1000)) := by
  have hout : s.fetchOk = false := by simp [State.fetchOk]; omega
  have haddr : (if s.pc.toNat < 4096 then s.pc.toNat + 1 else s.pc.toNat) = max s.pc.toNat 0x1000 := by
    split <;> omega
  rw [step_of_fetchFault hout, State.fetchFault, haddr]

end Flow

/-- Settles O29: the check is on SP, and the popped slot is the one below SP. -/
theorem retPopsAndGoesPastTheCall : Obligations.RetPopsAndGoesPastTheCall := by
  refine ⟨rfl, fun s => ⟨fun h => exec_fault_iff.2 (by simp [instrOk, instrFault, h]), fun h => ?_⟩⟩
  refine ⟨_, exec_ret_of_pos h, ?_, fun k hk => ?_, rfl, (keeps_pop s rfl).trans (keeps_setPc _ _ _)⟩
  · exact Nat.sub_add_cancel h
  · rw [State.setPc_pc, top_eq_slot hk, BitVec.toNat_add]; rfl

/-- Settles O30: a jump is one write of PC, which is in no frame. -/
theorem jpSetsPcToAddress : Obligations.JpSetsPcToAddress := fun nnn s =>
  ⟨decode_jp nnn, _, exec_jp nnn s, absolute_toNat nnn, keeps_setPc _ _ _⟩

/-- Settles O31: the check is on SP, and a call is a push of its own PC, then a write of PC. -/
theorem callPushesItsOwnAddress : Obligations.CallPushesItsOwnAddress := by
  refine fun nnn s => ⟨decode_call nnn, fun h => exec_fault_iff.2 (by simp [instrOk, instrFault, h]), fun h => ?_⟩
  exact ⟨_, exec_call_of_lt nnn h, s.push_sp h, absolute_toNat nnn, push_slot h s.pc,
    (keeps_push s _ rfl).trans (keeps_setPc _ _ _)⟩

/-- Settles O32: the sum fits in 16 bits, and the tick leaves PC for the next fetch to fail on. -/
theorem jpV0AddsV0 : Obligations.JpV0AddsV0 := by
  refine fun nnn s => ⟨decode_jpV0 nnn, _, exec_jpV0 nnn s, offsetTarget_toNat nnn _, keeps_setPc _ _ _, fun hfar => ?_⟩
  exact step_of_pc_ge (s := (s.setPc (offsetTarget nnn (s.reg 0#4))).tick) hfar

end Sys2Proof.Proofs

/-! # Proofs: conditional skips on registers (42_skip.md R110 to R113) -/

namespace Sys2Proof.Proofs

open Sys2Proof.Machine

/-! ### The four words decode (30_encoding.md R74) -/

theorem decode_seImm (x : Nibble) (nn : Byte) : decode (0x3#4 ++ x ++ nn) = some (.seImm x nn) := by simp [decode]

theorem decode_sneImm (x : Nibble) (nn : Byte) : decode (0x4#4 ++ x ++ nn) = some (.sneImm x nn) := by simp [decode]

theorem decode_op5 (x y n : Nibble) :
    decode (0x5#4 ++ x ++ y ++ n) = if n = 0#4 then some (.seReg x y) else none := by simp [decode]

theorem decode_op9 (x y n : Nibble) :
    decode (0x9#4 ++ x ++ y ++ n) = if n = 0#4 then some (.sneReg x y) else none := by simp [decode]

section Skips

variable {s : State}

/-! ### Each instruction is one conditional skip -/

theorem exec_seImm (x : Nibble) (nn : Byte) : exec (.seImm x nn) s = .next (s.skipIf (s.reg x == nn)) := rfl

theorem exec_sneImm (x : Nibble) (nn : Byte) : exec (.sneImm x nn) s = .next (s.skipIf (s.reg x != nn)) := rfl

theorem exec_seReg (x y : Nibble) : exec (.seReg x y) s = .next (s.skipIf (s.reg x == s.reg y)) := rfl

theorem exec_sneReg (x y : Nibble) : exec (.sneReg x y) s = .next (s.skipIf (s.reg x != s.reg y)) := rfl

/-- An instruction that answers a skip on the test c of p goes on by 4 where p holds and by 2 where not, and writes nothing
but PC. -/
theorem completes_of_skipIf {i : Instr} {c : Bool} {p : Prop} [Decidable p] (he : exec i s = .next (s.skipIf c))
    (hc : c = true ↔ p) : ∃ t, exec i s = .next t ∧ PcPlus (if p then 4 else 2) s t ∧ Keeps {} s t := by
  have hpc : PcPlus (if p then 4 else 2) s (s.skipIf c) := by simpa only [hc] using pcPlus_skipIf s c
  exact ⟨_, he, hpc, keeps_skipIf _ s c⟩

end Skips

/-- Settles O34: both are one skip, on the test of VX against NN and on its opposite. -/
theorem immediateSkipsFollowTheirCondition : Obligations.ImmediateSkipsFollowTheirCondition := fun x nn _ =>
  ⟨decode_seImm x nn, decode_sneImm x nn, completes_of_skipIf (exec_seImm x nn) beq_iff_eq,
    completes_of_skipIf (exec_sneImm x nn) bne_iff_ne⟩

/-- Settles O35: both are one skip, on the test of VX against VY and on its opposite, and the decoder takes N = 0 alone
(D18). -/
theorem registerSkipsFollowTheirCondition : Obligations.RegisterSkipsFollowTheirCondition := fun x y n _ =>
  ⟨decode_op5 x y n, decode_op9 x y n, completes_of_skipIf (exec_seReg x y) beq_iff_eq,
    completes_of_skipIf (exec_sneReg x y) bne_iff_ne⟩

end Sys2Proof.Proofs

/-! # Proofs: register loads and arithmetic (43_alu.md R120 to R133) -/

namespace Sys2Proof.Proofs

open Sys2Proof.Machine

/-! ### The words decode (30_encoding.md R74) -/

theorem decode_ldImm (x : Nibble) (nn : Byte) : decode (0x6#4 ++ x ++ nn) = some (.ldImm x nn) := by simp [decode]

theorem decode_addImm (x : Nibble) (nn : Byte) : decode (0x7#4 ++ x ++ nn) = some (.addImm x nn) := by simp [decode]

theorem decode_rnd (x : Nibble) (nn : Byte) : decode (0xC#4 ++ x ++ nn) = some (.rnd x nn) := by simp [decode]

/-- Where N is a literal, the second dispatch evaluates, so this gives each row of op 8 (R73). -/
theorem decode_op8 (x y n : Nibble) : decode (0x8#4 ++ x ++ y ++ n) = decodeOp8 x y n := by simp [decode]

section Alu

variable {s : State}

/-! ### Each instruction is one of the two shapes: a result, or a flag and then a result -/

theorem exec_ldImm (x : Nibble) (nn : Byte) : exec (.ldImm x nn) s = s.result x nn := rfl

theorem exec_addImm (x : Nibble) (nn : Byte) : exec (.addImm x nn) s = s.result x (s.reg x + nn) := rfl

theorem exec_ldReg (x y : Nibble) : exec (.ldReg x y) s = s.result x (s.reg y) := rfl

theorem exec_orReg (x y : Nibble) : exec (.orReg x y) s = s.result x (s.reg x ||| s.reg y) := rfl

theorem exec_andReg (x y : Nibble) : exec (.andReg x y) s = s.result x (s.reg x &&& s.reg y) := rfl

theorem exec_xorReg (x y : Nibble) : exec (.xorReg x y) s = s.result x (s.reg x ^^^ s.reg y) := rfl

theorem exec_rnd (x : Nibble) (nn : Byte) : exec (.rnd x nn) s = s.result x (s.randIn &&& nn) := rfl

theorem exec_addReg (x y : Nibble) :
    exec (.addReg x y) s = s.flagThenResult (carry (s.reg x) (s.reg y)) x fun t => t.reg x + t.reg y := rfl

theorem exec_subReg (x y : Nibble) :
    exec (.subReg x y) s = s.flagThenResult (notBorrow (s.reg x) (s.reg y)) x fun t => t.reg x - t.reg y := rfl

theorem exec_shr (x y : Nibble) :
    exec (.shr x y) s = s.flagThenResult (lowBit (s.reg x)) x fun t => t.reg x >>> 1 := rfl

theorem exec_subnReg (x y : Nibble) :
    exec (.subnReg x y) s = s.flagThenResult (notBorrow (s.reg y) (s.reg x)) x fun t => t.reg y - t.reg x := rfl

theorem exec_shl (x y : Nibble) :
    exec (.shl x y) s = s.flagThenResult (highBit (s.reg x)) x fun t => t.reg x <<< 1 := rfl

/-! ### What the two shapes do -/

/-- A result is written to VX, and nothing but VX and PC changes. -/
theorem completes_of_result {i : Instr} {x : Nibble} {b : Byte} (he : exec i s = s.result x b) :
    ∃ t, exec i s = .next t ∧ t.reg x = b ∧ PcPlus 2 s t ∧ Keeps { regs := fun r => r = x } s t :=
  ⟨_, he, by simp, pcPlus_advance_of rfl, (keeps_setReg s b rfl).trans (keeps_advance _ _)⟩

/-- The same for a result that is known bit by bit. -/
theorem completes_of_result_bits {i : Instr} {x : Nibble} {b : Byte} {bit : Nat → Bool} (he : exec i s = s.result x b)
    (hb : ∀ k, b.getLsbD k = bit k) :
    ∃ t, exec i s = .next t ∧ (∀ k, (t.reg x).getLsbD k = bit k) ∧ PcPlus 2 s t ∧
      Keeps { regs := fun r => r = x } s t := by
  obtain ⟨t, hnext, rfl, hpc, hkeeps⟩ := completes_of_result he
  exact ⟨t, hnext, hb, hpc, hkeeps⟩

/-- The flag is written to VF, then the result, of the registers as that write left them, to VX: for X = F the result
is what VF keeps (R133). Nothing but VF, VX and PC changes. -/
theorem completes_of_flagThenResult {i : Instr} {x : Nibble} {flag : Byte} {f : State → Byte}
    (he : exec i s = s.flagThenResult flag x f) :
    ∃ t, exec i s = .next t ∧ t.reg x = f (s.setFlag flag) ∧ (x ≠ vf → (t.reg vf).toNat = flag.toNat) ∧ PcPlus 2 s t ∧
      Keeps { regs := fun r => r = x ∨ r = vf } s t := by
  refine ⟨_, he, by simp, fun hx => ?_, pcPlus_advance_of rfl, ?_⟩
  · rw [State.advance_reg, State.setReg_reg, if_neg hx.symm, State.setFlag_reg, if_pos rfl]
  · have hvf : Keeps { regs := fun r => r = x ∨ r = vf } s (s.setFlag flag) := keeps_setReg s flag (Or.inr rfl)
    exact hvf.trans ((keeps_setReg _ _ (Or.inl rfl)).trans (keeps_advance _ _))

/-! ### The operands behind a flag write, and the operations, as numbers -/

theorem setFlag_reg_toNat (b : Byte) (r : Nibble) :
    ((s.setFlag b).reg r).toNat = if r = vf then b.toNat else (s.reg r).toNat := by
  rw [State.setFlag_reg, apply_ite BitVec.toNat]

theorem byte_sub_toNat (a b : Byte) : ((a - b).toNat : Int) = ((a.toNat : Int) - (b.toNat : Int)) % 256 := by
  rw [BitVec.toNat_sub]; omega

theorem byte_half_toNat (a : Byte) : (a >>> 1).toNat = a.toNat / 2 := by
  rw [BitVec.toNat_ushiftRight, Nat.shiftRight_eq_div_pow, pow_one]

theorem byte_double_toNat (a : Byte) : (a <<< 1).toNat = a.toNat * 2 % 256 := by
  rw [BitVec.toNat_shiftLeft, Nat.shiftLeft_eq, pow_one]

end Alu

/-- Settles O36: a result, the immediate itself. -/
theorem ldImmLoadsTheByte : Obligations.LdImmLoadsTheByte := fun x nn _ =>
  ⟨decode_ldImm x nn, completes_of_result (exec_ldImm x nn)⟩

/-- Settles O37: a result, and the sum of two bytes wraps at 256. -/
theorem addImmWrapsWithoutFlag : Obligations.AddImmWrapsWithoutFlag := by
  intro x nn s
  obtain ⟨t, hnext, hresult, hpc, hkeeps⟩ := completes_of_result (s := s) (exec_addImm x nn)
  exact ⟨decode_addImm x nn, t, hnext, by rw [hresult, BitVec.toNat_add], hpc, hkeeps⟩

/-- Settles O38: a result, the other register as it was. -/
theorem ldRegCopiesRegister : Obligations.LdRegCopiesRegister := fun x y _ =>
  ⟨decode_op8 x y 0x0#4, completes_of_result (exec_ldReg x y)⟩

/-- Settles O39: three results, known bit by bit. -/
theorem logicRowsWorkBitByBit : Obligations.LogicRowsWorkBitByBit := fun x y _ =>
  ⟨decode_op8 x y 0x1#4, decode_op8 x y 0x2#4, decode_op8 x y 0x3#4,
    completes_of_result_bits (exec_orReg x y) fun _ => BitVec.getLsbD_or,
    completes_of_result_bits (exec_andReg x y) fun _ => BitVec.getLsbD_and,
    completes_of_result_bits (exec_xorReg x y) fun _ => BitVec.getLsbD_xor⟩

/-- Settles O40: the flag is the carry, and the sum reads the registers behind the flag write (D2). -/
theorem addRegWritesCarryThenSum : Obligations.AddRegWritesCarryThenSum := by
  intro x y s
  obtain ⟨t, hnext, hresult, hflag, hpc, hkeeps⟩ := completes_of_flagThenResult (s := s) (exec_addReg x y)
  refine ⟨decode_op8 x y 0x4#4, t, _, carry_toNat _ _, hnext, ?_, hflag, hpc, hkeeps⟩
  rw [hresult, BitVec.toNat_add, setFlag_reg_toNat, setFlag_reg_toNat]

/-- Settles O41: the flag is the NOT-borrow, and the difference reads the registers behind the flag write (D2). -/
theorem subWritesNotBorrowThenDifference : Obligations.SubWritesNotBorrowThenDifference := by
  intro x y s
  obtain ⟨t, hnext, hresult, hflag, hpc, hkeeps⟩ := completes_of_flagThenResult (s := s) (exec_subReg x y)
  refine ⟨decode_op8 x y 0x5#4, t, _, notBorrow_toNat _ _, hnext, ?_, hflag, hpc, hkeeps⟩
  rw [hresult, byte_sub_toNat, setFlag_reg_toNat, setFlag_reg_toNat]

/-- Settles O42: the flag is bit 0, and the half is of VX behind the flag write (D2); Y is in neither. -/
theorem shrMovesLowBitToVF : Obligations.ShrMovesLowBitToVF := by
  intro x y s
  obtain ⟨t, hnext, hresult, hflag, hpc, hkeeps⟩ := completes_of_flagThenResult (s := s) (exec_shr x y)
  refine ⟨decode_op8 x y 0x6#4, t, _, lowBit_toNat _, hnext, ?_, hflag, hpc, hkeeps⟩
  rw [hresult, byte_half_toNat, setFlag_reg_toNat]

/-- Settles O43: as O41, with VX subtracted from VY. -/
theorem subnWritesNotBorrowThenDifference : Obligations.SubnWritesNotBorrowThenDifference := by
  intro x y s
  obtain ⟨t, hnext, hresult, hflag, hpc, hkeeps⟩ := completes_of_flagThenResult (s := s) (exec_subnReg x y)
  refine ⟨decode_op8 x y 0x7#4, t, _, notBorrow_toNat _ _, hnext, ?_, hflag, hpc, hkeeps⟩
  rw [hresult, byte_sub_toNat, setFlag_reg_toNat, setFlag_reg_toNat]

/-- Settles O44: the flag is bit 7, and the double is of VX behind the flag write (D2); Y is in neither. -/
theorem shlMovesHighBitToVF : Obligations.ShlMovesHighBitToVF := by
  intro x y s
  obtain ⟨t, hnext, hresult, hflag, hpc, hkeeps⟩ := completes_of_flagThenResult (s := s) (exec_shl x y)
  refine ⟨decode_op8 x y 0xE#4, t, _, highBit_toNat _, hnext, ?_, hflag, hpc, hkeeps⟩
  rw [hresult, byte_double_toNat, setFlag_reg_toNat]

/-- Settles O45: a result, known bit by bit, of the step's random byte whatever it is (D16). -/
theorem rndMasksTheRandomByte : Obligations.RndMasksTheRandomByte := fun x nn _ =>
  ⟨decode_rnd x nn, completes_of_result_bits (exec_rnd x nn) fun _ => BitVec.getLsbD_and⟩

end Sys2Proof.Proofs

/-! # Proofs: index register and memory instructions (44_index_memory.md R140 to R146) -/

namespace Sys2Proof.Proofs

open Sys2Proof.Machine

/-! ### The words decode (30_encoding.md R74) -/

theorem decode_ldI (nnn : Addr12) : decode (0xA#4 ++ nnn) = some (.ldI nnn) := by simp [decode]

/-- Where NN is a literal, the second dispatch evaluates, so this gives each row of op F (R73). -/
theorem decode_opF (x : Nibble) (nn : Byte) : decode (0xF#4 ++ x ++ nn) = decodeOpF x nn := by simp [decode]

section IndexMemory

variable {s : State}

/-! ### What each instruction answers -/

theorem exec_ldI (nnn : Addr12) : exec (.ldI nnn) s = .next (s.setI (absolute nnn)).advance := rfl

theorem exec_ldF (x : Nibble) : exec (.ldF x) s = .next (s.setI (glyphAddr (s.reg x))).advance := rfl

/-- The flag write leaves I, and the addend is read behind it. -/
theorem exec_addI (x : Nibble) :
    exec (.addI x) s =
      .next ((s.setFlag (indexOverflow s.i (s.reg x))).setI
        (s.i + zext16 ((s.setFlag (indexOverflow s.i (s.reg x))).reg x))).advance := rfl

theorem exec_ldB (x : Nibble) :
    exec (.ldB x) s = s.access 3 (.next (s.setMem (s.mem.store s.dataAddr (bcdDigits (s.reg x)))).advance) := rfl

theorem exec_storeRegs (x : Nibble) :
    exec (.storeRegs x) s = s.access (regCount x)
      (.next ((s.setMem (s.mem.store s.dataAddr (s.firstRegs x))).setI (s.iPast x)).advance) := rfl

theorem exec_loadRegs (x : Nibble) :
    exec (.loadRegs x) s = s.access (regCount x)
      (.next (State.setI { s with v := loadInto s.mem s.dataAddr s.v (regCount x) } (s.iPast x)).advance) := rfl

/-! ### The check of an access through I (R146) -/

/-- An access to n + 1 bytes whose last address is outside the memory is fatal, before anything is written. -/
theorem access_of_gt {n : Nat} (k : Answer) (h : s.i.toNat + n > 0xFFF) :
    s.access (n + 1) k = .fault (.data s.pc none (max s.i.toNat 0x1000)) := by
  have hfail : accessOk s.dataAddr (n + 1) = false :=
    accessOk_false_iff.2 ⟨n.succ_ne_zero, by rw [State.dataAddr]; omega⟩
  rw [State.access, hfail, check_false]; rfl

/-- An access to n + 1 bytes whose last address is in the memory goes on. -/
theorem access_of_le {n : Nat} (k : Answer) (h : s.i.toNat + n ≤ 0xFFF) : s.access (n + 1) k = k := by
  have hpass : accessOk s.dataAddr (n + 1) = true := accessOk_iff.2 (.inr (by rw [State.dataAddr]; omega))
  rw [State.access, hpass, check_true]

/-! ### The bytes stored and the registers loaded -/

/-- The k-th stored byte stands at a + k. -/
theorem read_store_add {m : Memory} (hm : m.wf) {a k : Nat} {bs : List Byte} (ha : a + bs.length ≤ 4096)
    (hk : k < bs.length) : (m.store a bs).read (a + k) = bs[k] := by
  rw [Memory.read_store hm bs ha, dif_pos ⟨Nat.le_add_right a k, Nat.add_lt_add_left hk a⟩]
  exact getElem_congr_idx (Nat.add_sub_cancel_left ..)

/-- The k-th digit d of a byte, stored at I, reads back as d. -/
theorem read_bcdDigits (hwf : s.mem.wf) (hin : s.i.toNat + 2 ≤ 0xFFF) {b : Byte} {k d : Nat} (hk : k < 3)
    (hdigit : (bcdDigits b)[k] = BitVec.ofNat 8 d) (hd : d < 256) :
    ((s.mem.store s.dataAddr (bcdDigits b)).read (s.dataAddr + k)).toNat = d := by
  have hfits : s.dataAddr + (bcdDigits b).length ≤ 4096 := by rw [bcdDigits_length, State.dataAddr]; omega
  rw [read_store_add hwf hfits hk, hdigit, BitVec.toNat_ofNat, Nat.mod_eq_of_lt hd]

/-- A load of n registers gives those below n their bytes and leaves the others. -/
theorem loadInto_reg (m : Memory) (a : Nat) {n : Nat} (hn : n ≤ 16) (r : Nibble) :
    ({ s with v := loadInto m a s.v n } : State).reg r = if r.toNat < n then m.read (a + r.toNat) else s.reg r :=
  Memory.getElem_loadInto m a s.v hn r.isLt

theorem keeps_loadInto {f : Footprint} (m : Memory) (a : Nat) {n : Nat} (hn : n ≤ 16)
    (h : ∀ r : Nibble, r.toNat < n → f.regs r) : Keeps f s { s with v := loadInto m a s.v n } := by
  have hregs : ∀ r, ¬ f.regs r → ({ s with v := loadInto m a s.v n } : State).reg r = s.reg r := fun r hr =>
    (loadInto_reg m a hn r).trans (if_neg fun hlt => hr (h r hlt))
  exact { Keeps.refl f s with regs := hregs }

theorem regCount_le (x : Nibble) : regCount x ≤ 16 := x.isLt

/-! ### A write of I, then the normal advance -/

theorem keeps_setI_advance {f : Footprint} (s : State) (a : Word) (h : f.index = true) :
    Keeps f s (s.setI a).advance := (keeps_setI s a h).trans (keeps_advance _ _)

/-- An instruction that answers a write of I writes nothing but I and PC. -/
theorem completes_of_setI {i : Instr} {a : Word} {n : Nat} (he : exec i s = .next (s.setI a).advance) (ha : a.toNat = n) :
    ∃ t, exec i s = .next t ∧ t.i.toNat = n ∧ PcPlus 2 s t ∧ Keeps { index := true } s t :=
  ⟨_, he, ha, pcPlus_advance_of rfl, keeps_setI_advance s a rfl⟩

end IndexMemory

/-- Settles O46: a write of I, the address zero-extended. -/
theorem ldILoadsTheAddress : Obligations.LdILoadsTheAddress := fun nnn _ =>
  ⟨decode_ldI nnn, completes_of_setI (exec_ldI nnn) (absolute_toNat nnn)⟩

/-- Settles O47: the flag is the index overflow, and the sum reads VX behind the flag write (D2). -/
theorem addIWritesOverflowThenSum : Obligations.AddIWritesOverflowThenSum := by
  intro x s
  refine ⟨decode_opF x 0x1E#8, _, _, indexOverflow_toNat s.i (s.reg x), exec_addI x, ?_, ?_, pcPlus_advance_of rfl, ?_⟩
  · rw [State.advance_reg, State.setI_reg, State.setFlag_reg, if_pos rfl]
  · rw [State.advance_i, State.setI_i, BitVec.toNat_add, zext16_toNat, setFlag_reg_toNat]
  · exact (keeps_setReg s _ rfl).trans (keeps_setI_advance _ _ rfl)

/-- Settles O48: a write of I, and five times a byte fits in 16 bits. -/
theorem ldFPointsAtTheGlyph : Obligations.LdFPointsAtTheGlyph := fun x s =>
  ⟨decode_opF x 0x29#8, completes_of_setI (exec_ldF x) (glyphAddr_toNat (s.reg x))⟩

/-- Settles O49: the check is on the last of the three addresses, and the k-th digit is the byte stored at I + k. -/
theorem ldBStoresDecimalDigits : Obligations.LdBStoresDecimalDigits := by
  refine fun x s hwf => ⟨decode_opF x 0x33#8, access_of_gt (n := 2) _, fun hin => ?_⟩
  have hlt := (s.reg x).isLt
  have hstore : Keeps { bytes := fun a => s.dataAddr ≤ a ∧ a < s.dataAddr + 3 } s
      (s.setMem (s.mem.store s.dataAddr (bcdDigits (s.reg x)))) := keeps_store s _ fun _ hlo hhi => ⟨hlo, hhi⟩
  exact ⟨_, (exec_ldB x).trans (access_of_le (n := 2) _ hin),
    read_bcdDigits hwf hin (k := 0) (by decide) rfl (by omega), read_bcdDigits hwf hin (k := 1) (by decide) rfl (by omega),
    read_bcdDigits hwf hin (k := 2) (by decide) rfl (by omega), pcPlus_advance_of rfl, hstore.trans (keeps_advance _ _)⟩

/-- Settles O50: the check is on the last address, and the k-th stored byte is Vk. -/
theorem storeRegsStoresAndAdvancesI : Obligations.StoreRegsStoresAndAdvancesI := by
  refine fun x s hwf => ⟨decode_opF x 0x55#8, access_of_gt _, fun hin => ?_⟩
  refine ⟨_, (exec_storeRegs x).trans (access_of_le _ hin), fun k hk => ?_, iPast_toNat s x, pcPlus_advance_of rfl, ?_⟩
  · have hlt : k.toNat < (s.firstRegs x).length := by rw [firstRegs_length, regCount]; omega
    have hfits : s.dataAddr + (s.firstRegs x).length ≤ 4096 := by
      rw [firstRegs_length, regCount, State.dataAddr]; omega
    exact (read_store_add hwf hfits hlt).trans (getElem_firstRegs s x k hlt)
  · have hstore : Keeps { index := true, bytes := fun a => s.dataAddr ≤ a ∧ a < s.dataAddr + (x.toNat + 1) } s
        (s.setMem (s.mem.store s.dataAddr (s.firstRegs x))) :=
      keeps_store s _ fun _ hlo hhi => ⟨hlo, hhi.trans_eq (congrArg _ (firstRegs_length s x))⟩
    exact hstore.trans (keeps_setI_advance _ _ rfl)

/-- Settles O51: the check is on the last address, and the registers up to X are the bytes from I on. -/
theorem loadRegsLoadsAndAdvancesI : Obligations.LoadRegsLoadsAndAdvancesI := by
  refine fun x s => ⟨decode_opF x 0x65#8, access_of_gt _, fun hin => ?_⟩
  refine ⟨_, (exec_loadRegs x).trans (access_of_le _ hin), fun k hk => ?_, iPast_toNat s x, pcPlus_advance_of rfl, ?_⟩
  · exact (loadInto_reg s.mem s.dataAddr (regCount_le x) k).trans (if_pos (Nat.lt_succ_of_le hk))
  · exact (keeps_loadInto s.mem s.dataAddr (regCount_le x) fun r hr => Nat.le_of_lt_succ hr).trans
      (keeps_setI_advance _ _ rfl)

end Sys2Proof.Proofs

/-! # Proofs: framebuffer and sprite drawing (45_display.md R161 to R164) -/

namespace Sys2Proof.Proofs

open Sys2Proof.Machine

/-! ### The word of DXYN decodes (30_encoding.md R74) -/

theorem decode_drw (x y n : Nibble) : decode (0xD#4 ++ x ++ y ++ n) = some (.drw x y n) := by simp [decode]

section Display

variable {s : State} {x y n : Nibble}

/-! ### What each instruction answers -/

theorem exec_cls (s : State) : exec .cls s = .next (s.setFb clearAll).advance := rfl

/-- A sprite with a row outside the memory is fatal, before anything is written (R146). -/
theorem exec_drw_of_gt (hn : 1 ≤ n.toNat) (h : s.i.toNat + n.toNat - 1 > 0xFFF) :
    exec (.drw x y n) s = .fault (.data s.pc none (max s.i.toNat 0x1000)) := by
  have hfail : accessOk s.dataAddr n.toNat = false := accessOk_false_iff.2 (by rw [State.dataAddr]; omega)
  exact exec_fault_iff.2 ⟨hfail, rfl⟩

/-- A sprite without rows, or with all its rows in the memory, is drawn, then VF is written (R164). -/
theorem exec_drw_of_le (h : n.toNat = 0 ∨ s.i.toNat + n.toNat - 1 ≤ 0xFFF) :
    exec (.drw x y n) s =
      .next ((s.setFb (drawCells s.fb (s.spriteOf x y n)).1).setFlag
        (flagByte (drawCells s.fb (s.spriteOf x y n)).2)).advance := by
  have hpass : accessOk s.dataAddr n.toNat = true := accessOk_iff.2 (by rw [State.dataAddr]; omega)
  exact check_next_iff.2 ⟨hpass, rfl⟩

/-! ### What the draw of a sprite does to a framebuffer -/

/-- A cell is on after the draw iff it was on or lies under a set bit, and not both: the XOR of R162. -/
theorem getCell_drawSprite (fb : Screen) {cx cy : Nat} (hx : cx < 64) (hy : cy < 32) :
    getCell (drawCells fb (s.spriteOf x y n)).1 cx cy = true ↔
      ¬ (getCell fb cx cy = true ↔ s.spriteBit x y n cx cy) := by
  have hmem : (cx, cy) ∈ s.spriteOf x y n ↔ s.spriteBit x y n cx cy := by simp [mem_spriteOf, hx, hy]
  rw [drawCells_getCell (gridCells_spriteOf s x y n) fb hx hy, Bool.xor_iff_ne, Ne, Bool.eq_iff_iff, decide_eq_true_iff,
    hmem]

/-- The draw collides iff a cell of the grid that was on lies under a set bit. -/
theorem collision_drawSprite (fb : Screen) :
    (drawCells fb (s.spriteOf x y n)).2 = true ↔
      ∃ cx cy, cx < 64 ∧ cy < 32 ∧ getCell fb cx cy = true ∧ s.spriteBit x y n cx cy := by
  rw [drawCells_collision (gridCells_spriteOf s x y n), Prod.exists]
  refine exists₂_congr fun cx cy => ?_
  rw [mem_spriteOf]
  tauto

end Display

/-- Settles O54: the check is on the address of the last row, the draw is the XOR of the cells under the sprite's set bits,
and the flag, written last, is its collision. -/
theorem drwXorsClippedSpriteAndSetsCollision : Obligations.DrwXorsClippedSpriteAndSetsCollision := by
  refine fun x y n s => ⟨decode_drw x y n, exec_drw_of_gt, fun h => ?_⟩
  refine ⟨_, exec_drw_of_le h, fun cx cy => getCell_drawSprite s.fb, fun hit => ?_, fun miss => ?_,
    pcPlus_advance_of rfl, ?_⟩
  · rw [State.advance_reg, State.setFlag_reg, if_pos rfl, (collision_drawSprite s.fb).2 hit]; rfl
  · have hfalse := Bool.eq_false_iff.2 (mt (collision_drawSprite s.fb).1 miss)
    rw [State.advance_reg, State.setFlag_reg, if_pos rfl, hfalse]; rfl
  · exact (keeps_setFb s _ rfl).trans ((keeps_setReg _ _ rfl).trans (keeps_advance _ _))

/-- Settles O53: the framebuffer written is the one with no cell on. -/
theorem clsTurnsEveryCellOff : Obligations.ClsTurnsEveryCellOff :=
  ⟨rfl, fun s => ⟨_, exec_cls s, fun cx cy _ _ => getCell_clearAll cx cy, pcPlus_advance_of rfl,
    (keeps_setFb s _ rfl).trans (keeps_advance _ _)⟩⟩

end Sys2Proof.Proofs

/-! # Proofs: keys and timers (46_timer_key.md R170 to R175) -/

namespace Sys2Proof.Proofs

open Sys2Proof.Machine

/-- Where NN is a literal, the second dispatch evaluates, so this gives each row of op E (R73). -/
theorem decode_opE (x : Nibble) (nn : Byte) : decode (0xE#4 ++ x ++ nn) = decodeOpE x nn := by simp [decode]

section TimerKey

variable {s : State} {x : Nibble}

/-! ### What each instruction answers -/

/-- From VX = 16 on there is no key VX (D8). -/
theorem exec_skp_of_ge (h : 16 ≤ (s.reg x).toNat) : exec (.skp x) s = .fault (.keyIndex s.pc none (s.reg x)) :=
  exec_fault_iff.2 ⟨decide_eq_false (Nat.not_lt.2 h), rfl⟩

theorem exec_sknp_of_ge (h : 16 ≤ (s.reg x).toNat) : exec (.sknp x) s = .fault (.keyIndex s.pc none (s.reg x)) :=
  exec_fault_iff.2 ⟨decide_eq_false (Nat.not_lt.2 h), rfl⟩

theorem exec_skp_of_lt (h : (s.reg x).toNat < 16) :
    exec (.skp x) s = .next (s.skipIf (s.keyDown (s.reg x).toNat)) := check_next_iff.2 ⟨decide_eq_true h, rfl⟩

theorem exec_sknp_of_lt (h : (s.reg x).toNat < 16) :
    exec (.sknp x) s = .next (s.skipIf (!s.keyDown (s.reg x).toNat)) := check_next_iff.2 ⟨decide_eq_true h, rfl⟩

theorem exec_ldVxDt (x : Nibble) : exec (.ldVxDt x) s = s.result x s.dt := rfl

theorem exec_ldVxK (x : Nibble) : exec (.ldVxK x) s = .next (s.keyWait x s.lowestKey) := rfl

theorem exec_ldDtVx (x : Nibble) : exec (.ldDtVx x) s = .next (s.setDt (s.reg x)).advance := rfl

theorem exec_ldStVx (x : Nibble) : exec (.ldStVx x) s = .next (s.setSt (s.reg x)).advance := rfl

/-! ### What FX0A leaves (R173) -/

theorem keyWait_some (k : Nat) : s.keyWait x (some k) = (s.setReg x (BitVec.ofNat 8 k)).advance := rfl

theorem keyWait_none : s.keyWait x none = s.setStatus .waiting := rfl

/-! ### The beep of a tick (R189) -/

theorem tick_beep_iff : s.tick.beep = true ↔ s.st.toNat ≠ 0 := by
  rw [State.tick_beep, decide_eq_true_iff, ne_eq, ← BitVec.toNat_inj]; rfl

end TimerKey

/-- Settles O56: the check is on VX, and behind it both are one skip, on the sampled key VX and on its opposite. -/
theorem keySkipsFollowTheSampledKey : Obligations.KeySkipsFollowTheSampledKey := by
  refine fun x s => ⟨decode_opE x 0x9E#8, decode_opE x 0xA1#8, fun h => ⟨exec_skp_of_ge h, exec_sknp_of_ge h⟩, fun h => ?_⟩
  have hsknp := completes_of_skipIf (exec_sknp_of_lt h) Bool.not_iff_not
  rw [ite_not] at hsknp
  exact ⟨completes_of_skipIf (exec_skp_of_lt h) Iff.rfl, hsknp⟩

/-- Settles O57: a result, the DT of the state the instruction runs in. -/
theorem ldVxDtReadsTheDelayTimer : Obligations.LdVxDtReadsTheDelayTimer := fun x _ =>
  ⟨decode_opF x 0x07#8, completes_of_result (exec_ldVxDt x)⟩

/-- Settles O58: the lowest key decides. A key is a write of VX, then the normal advance; no key is a write of `status`
alone, and the tick behind it leaves PC and the memory, so the same word is fetched next. -/
theorem ldVxKTakesLowestKeyOrWaits : Obligations.LdVxKTakesLowestKeyOrWaits := by
  refine fun x s => ⟨decode_opF x 0x0A#8, _, exec_ldVxK x, fun k hk hdown hlow => ?_, fun hup => ?_⟩
  · rw [lowestKey_eq_some hk hdown hlow, keyWait_some]
    refine ⟨?_, pcPlus_advance_of rfl, (keeps_setReg s _ rfl).trans (keeps_advance _ _)⟩
    rw [State.advance_reg, State.setReg_reg, if_pos rfl, BitVec.toNat_ofNat, Nat.mod_eq_of_lt (by omega)]
  · rw [lowestKey_eq_none hup, keyWait_none]
    exact ⟨rfl, rfl, keeps_setStatus s _ rfl, tickByte_toNat s.dt, tickByte_toNat s.st, rfl, fetch_congr rfl rfl⟩

/-- Settles O59: each is a write of its timer, and the tick of the same step works on the timer as written (D27). -/
theorem timerWritesCopyVX : Obligations.TimerWritesCopyVX := by
  refine fun x s => ⟨decode_opF x 0x15#8, decode_opF x 0x18#8, ⟨_, exec_ldDtVx x, rfl, tickByte_toNat (s.reg x), ?_, ?_⟩,
    ⟨_, exec_ldStVx x, rfl, tickByte_toNat (s.reg x), tick_beep_iff, ?_, ?_⟩⟩
  · exact pcPlus_advance_of rfl
  · exact (keeps_setDt s _ rfl).trans (keeps_advance _ _)
  · exact pcPlus_advance_of rfl
  · exact (keeps_setSt s _ rfl).trans (keeps_advance _ _)

end Sys2Proof.Proofs

/-! # Proofs: timers and fatal errors of a step (60_exceptions.md R180 to R189) -/

namespace Sys2Proof.Proofs

open Sys2Proof.Machine

/-! ### A step without a next state -/

/-- A step that does not complete leaves the sampled state with some `status`: no tick has run (R93, R94; D6, D7). -/
theorem stateAfter_of_not_next {s : State} (h : ∀ t, step s ≠ .next t) :
    ∃ o, stateAfter s = s.sample.setStatus o := by
  obtain ⟨t, hnext⟩ | ⟨f, hfault⟩ | ⟨w, hrefused⟩ := step_trichotomy s
  · exact absurd hnext (h t)
  · exact ⟨_, stateAfter_fault hfault⟩
  · exact ⟨_, stateAfter_refused hrefused⟩

/-- Settles O9: a completed step is its instruction, then one tick; any other step is the sample and a `status`. -/
theorem timersTickOnceInCompletedSteps : Obligations.TimersTickOnceInCompletedSteps := by
  refine fun s => ⟨fun t hnext => ?_, fun hnone => ?_⟩
  · obtain ⟨-, i, u, hdecode, hexec, rfl⟩ := step_next_iff.1 hnext
    exact ⟨i, u, hdecode, hexec, tickByte_toNat u.dt, tickByte_toNat u.st, tick_beep_iff⟩
  · obtain ⟨o, hleft⟩ := stateAfter_of_not_next hnone
    rw [hleft]
    exact ⟨rfl, rfl, rfl⟩

section FatalCauses

variable {s : State} {x n : Nibble}

/-! ### The check of a step reads nothing that the sample writes -/

theorem instrOk_sample (s : State) (i : Instr) : instrOk s.sample i = instrOk s i := by cases i <;> rfl

theorem instrFault_sample (s : State) (i : Instr) : instrFault s.sample i = instrFault s i := by cases i <;> rfl

/-! ### Where each check fails, on unbounded numbers (R181) -/

theorem fetchOk_false_iff : s.fetchOk = false ↔ 0xFFF < s.pc.toNat + 1 := by
  rw [← Bool.not_eq_true, fetchOk_iff, Nat.not_le]

theorem instrOk_ret_false_iff : instrOk s .ret = false ↔ s.sp.val = 0 := by
  rw [instrOk, decide_eq_false_iff_not, Nat.pos_iff_ne_zero, not_not]

theorem instrOk_call_false_iff {nnn : Addr12} : instrOk s (.call nnn) = false ↔ s.sp.val = 16 := by
  have := s.sp.isLt
  rw [instrOk, decide_eq_false_iff_not]
  omega

theorem instrOk_drw_false_iff {y : Nibble} :
    instrOk s (.drw x y n) = false ↔ 1 ≤ n.toNat ∧ 0xFFF < s.i.toNat + n.toNat - 1 := by
  rw [instrOk, accessOk_false_iff, State.dataAddr]
  omega

theorem instrOk_ldB_false_iff : instrOk s (.ldB x) = false ↔ 0xFFF < s.i.toNat + 2 := by
  rw [instrOk, accessOk_false_iff, State.dataAddr]
  omega

theorem accessOk_regCount_false_iff : accessOk s.dataAddr (regCount x) = false ↔ 0xFFF < s.i.toNat + x.toNat := by
  rw [accessOk_false_iff, State.dataAddr, regCount]
  omega

theorem keyIndexOk_false_iff : decide ((s.reg x).toNat < 16) = false ↔ 16 ≤ (s.reg x).toNat := by
  rw [decide_eq_false_iff_not, Nat.not_lt]

/-! ### The address of a failed fetch (R57) -/

theorem fetchFault_eq (s : State) :
    s.fetchFault = .fetch s.pc (if 0xFFF < s.pc.toNat then s.pc.toNat else s.pc.toNat + 1) := by
  have haddr : (if s.pc.toNat < 4096 then s.pc.toNat + 1 else s.pc.toNat) =
      if 0xFFF < s.pc.toNat then s.pc.toNat else s.pc.toNat + 1 := by split_ifs <;> omega
  rw [State.fetchFault, haddr]

end FatalCauses

/-- Settles O15: a step is refused by its decoder alone, and fatal by its fetch or by the one check of its instruction. The
eight instructions with a check give the rows of R181; the check of every other one never fails. -/
theorem fatalCausesAreExactlyTheListed : Obligations.FatalCausesAreExactlyTheListed := by
  refine ⟨fun s w => ?_, fun s f => ?_⟩
  · rw [step_refused_iff, fetchOk_iff, Refusal.unimplemented.injEq]
    exact and_congr_right fun _ => ⟨fun ⟨hnone, hw⟩ => ⟨hw, hw ▸ hnone⟩, fun ⟨hw, hnone⟩ => ⟨hw ▸ hnone, hw⟩⟩
  · rw [step_fault_iff, fetchOk_false_iff, fetchOk_iff, fetchFault_eq]
    simp only [exists_and_left, exists_eq_left, instrOk_sample, instrFault_sample]
    refine or_congr_right (and_congr_right fun _ => exists_congr fun i => and_congr_right fun _ => ?_)
    cases i
    case ret =>
      rw [instrOk_ret_false_iff]
      exact and_congr_right fun hsp => by rw [instrFault, hsp]; rfl
    case call =>
      rw [instrOk_call_false_iff]
      exact and_congr_right fun hsp => by rw [instrFault, hsp]; rfl
    case drw => exact (and_congr_left' instrOk_drw_false_iff).trans and_assoc
    case ldB => exact and_congr_left' instrOk_ldB_false_iff
    case storeRegs => exact and_congr_left' accessOk_regCount_false_iff
    case loadRegs => exact and_congr_left' accessOk_regCount_false_iff
    case skp => exact and_congr_left' keyIndexOk_false_iff
    case sknp => exact and_congr_left' keyIndexOk_false_iff
    all_goals simp [instrOk]

end Sys2Proof.Proofs

/-! # Proofs: reset and load (70_reset_and_hazards.md R200 to R202) -/

namespace Sys2Proof.Proofs

open Sys2Proof.Machine

/-- No key is down where the key state is all zero (R31). -/
theorem keyDown_of_keys_eq_zero {s : State} (h : s.keys = 0#16) (k : Nat) : s.keyDown k = false := by
  rw [State.keyDown, h, BitVec.getLsbD_zero]

/-- Settles O25: no field of R36 depends on the state before; a vector of one value has it at every index (D13). -/
theorem resetSetsEveryElement : Obligations.ResetSetsEveryElement := fun _ =>
  ⟨fun r => Vector.getElem_replicate r.isLt, rfl, rfl, rfl, fun k => Vector.getElem_replicate k.isLt, rfl, rfl,
    getCell_clearAll, keyDown_of_keys_eq_zero rfl, Memory.read_nil, rfl, rfl⟩

section Load

variable {font : Font} {image : List Byte} {s : State} {m : Memory}

/-! ### What load answers (R201) -/

/-- The state that an accepted load leaves. -/
def loadedState (font : Font) (image : List Byte) (s : State) : State :=
  { s with
    mem := loadedMem font image s.mem
    pc := 0x200#16
    sp := 0
    dt := 0#8
    st := 0#8
    fb := clearAll
    keys := 0#16 }

theorem load_of_le (h : image.length ≤ 3584) : s.load font image = (.loaded, loadedState font image s) :=
  if_pos (decide_eq_true h)

theorem load_of_gt (h : 3584 < image.length) : s.load font image = (.tooLarge, s) :=
  if_neg fun hfits => Nat.not_le_of_lt h (of_decide_eq_true hfits)

/-- Only a load of an image that fits is accepted. -/
theorem eq_loadedState_of_load {t : State} (h : s.load font image = (.loaded, t)) : t = loadedState font image s := by
  obtain hlong | hfits := Nat.lt_or_ge 3584 image.length
  · rw [load_of_gt hlong] at h
    exact LoadStatus.noConfusion (congrArg Prod.fst h)
  · rw [load_of_le hfits] at h
    exact (congrArg Prod.snd h).symm

/-! ### The memory after a load: the image's store, then the font's -/

/-- The font's bytes stand at 0x000 to 0x04F: they are the second store. -/
theorem read_loadedMem_font (hm : m.wf) (image : List Byte) {k : Nat} (hk : k < 80) :
    (loadedMem font image m).read k = font[k] := by
  have hlen : font.toList.length = 80 := font.length_toList
  calc (loadedMem font image m).read k
    _ = (loadedMem font image m).read (0x000 + k) := by rw [Nat.zero_add]
    _ = font.toList[k] := read_store_add (Memory.wf_store hm 0x200 image) (a := 0x000) (by omega) (by omega)
    _ = font[k] := Vector.getElem_toList _

/-- The font's store ends below every address from 0x050 on. -/
theorem read_loadedMem_of_ge {a : Nat} (ha : 0x050 ≤ a) :
    (loadedMem font image m).read a = (m.store 0x200 image).read a := by
  have hlen : font.toList.length = 80 := font.length_toList
  exact Memory.read_store_of_not_range _ 0 font.toList (by omega)

/-- The image's bytes stand at 0x200 upward: the font's store does not reach them. -/
theorem read_loadedMem_image (hm : m.wf) (hfits : image.length ≤ 3584) {k : Nat} (hk : k < image.length) :
    (loadedMem font image m).read (0x200 + k) = image[k] :=
  (read_loadedMem_of_ge (by omega)).trans (read_store_add hm (by omega) hk)

/-- Bytes above the font that the image does not cover keep their values (R202), in any memory. -/
theorem read_loadedMem_of_not_image {a : Nat} (ha : 0x050 ≤ a) (h : a < 0x200 ∨ 0x200 + image.length ≤ a) :
    (loadedMem font image m).read a = m.read a :=
  (read_loadedMem_of_ge ha).trans (Memory.read_store_of_not_range m 0x200 image (by omega))

end Load

/-- Settles O26: the image's length decides which of the two answers it is, and the two stores give the bytes (D14). -/
theorem loadPlacesImageAndFont : Obligations.LoadPlacesImageAndFont := fun _ image _ hwf =>
  ⟨load_of_gt, fun hfits => ⟨_, load_of_le hfits, fun _ => read_loadedMem_image hwf hfits,
    fun _ => read_loadedMem_font hwf image, rfl, rfl, rfl, rfl, getCell_clearAll, keyDown_of_keys_eq_zero rfl⟩⟩

/-- Settles O27: an accepted load leaves V, I and the stack slots, and its two stores cover no other byte (D14). -/
theorem loadKeepsWhatItDoesNotName : Obligations.LoadKeepsWhatItDoesNotName := by
  intro font image s t hload
  obtain rfl := eq_loadedState_of_load hload
  exact ⟨fun _ => rfl, rfl, rfl, fun a hlo hhi => read_loadedMem_of_not_image hlo (.inl hhi),
    fun a hend => read_loadedMem_of_not_image (by omega) (.inr hend)⟩

end Sys2Proof.Proofs

/-! # Proofs: the decoder and the encoder (30_encoding.md R70 to R77) -/

namespace Sys2Proof.Proofs

open Sys2Proof.Machine

/-! ### The decoder gives back what was encoded -/

/-- The word of each instruction decodes to it: one dispatch on op, and for op 8, E and F a second one on a fixed digit. -/
theorem decode_encode (i : Instr) : decode (encode i) = some i := by
  cases i with
  | cls => rfl
  | ret => rfl
  | jp nnn => exact decode_jp nnn
  | call nnn => exact decode_call nnn
  | seImm x nn => exact decode_seImm x nn
  | sneImm x nn => exact decode_sneImm x nn
  | seReg x y => exact decode_op5 x y 0x0#4
  | ldImm x nn => exact decode_ldImm x nn
  | addImm x nn => exact decode_addImm x nn
  | ldReg x y => exact decode_op8 x y 0x0#4
  | orReg x y => exact decode_op8 x y 0x1#4
  | andReg x y => exact decode_op8 x y 0x2#4
  | xorReg x y => exact decode_op8 x y 0x3#4
  | addReg x y => exact decode_op8 x y 0x4#4
  | subReg x y => exact decode_op8 x y 0x5#4
  | shr x y => exact decode_op8 x y 0x6#4
  | subnReg x y => exact decode_op8 x y 0x7#4
  | shl x y => exact decode_op8 x y 0xE#4
  | sneReg x y => exact decode_op9 x y 0x0#4
  | ldI nnn => exact decode_ldI nnn
  | jpV0 nnn => exact decode_jpV0 nnn
  | rnd x nn => exact decode_rnd x nn
  | drw x y n => exact decode_drw x y n
  | skp x => exact decode_opE x 0x9E#8
  | sknp x => exact decode_opE x 0xA1#8
  | ldVxDt x => exact decode_opF x 0x07#8
  | ldVxK x => exact decode_opF x 0x0A#8
  | ldDtVx x => exact decode_opF x 0x15#8
  | ldStVx x => exact decode_opF x 0x18#8
  | addI x => exact decode_opF x 0x1E#8
  | ldF x => exact decode_opF x 0x29#8
  | ldB x => exact decode_opF x 0x33#8
  | storeRegs x => exact decode_opF x 0x55#8
  | loadRegs x => exact decode_opF x 0x65#8

theorem decode_of_encode_eq {i : Instr} {w : Word} (h : encode i = w) : decode w = some i := h ▸ decode_encode i

/-- Settles O2: the two bytes put together are the word again, and the word decodes to its instruction. -/
theorem decodeOfEncodedBytesGivesInstr : Obligations.DecodeOfEncodedBytesGivesInstr := by
  intro i rest _
  change decodeBytes (hiByte (encode i) :: loByte (encode i) :: rest) = .ok (i, rest)
  rw [decodeBytes, wordOfBytes_bytes, decode_encode]

/-- Settles O1: each word is the fields of its pattern put together, with the operands the pattern leaves open. -/
theorem sampleWordsDecode : Obligations.SampleWordsDecode :=
  ⟨rfl, decode_call 0x345#12, decode_op5 1#4 2#4 0x0#4, decode_op8 0xF#4 2#4 0x6#4, decode_drw 1#4 2#4 5#4,
    decode_opE 5#4 0x9E#8, decode_opF 2#4 0x65#8, decode_op5 0#4 0#4 0x1#4⟩

section Words

variable {w : Word} {i : Instr} {x y n : Nibble} {nn : Byte}

/-! ### A word by its op -/

theorem word_nnn_of_op {op : Nibble} (h : fieldOp w = op) : op ++ fieldNNN w = w := h ▸ (eq_word_nnn w).symm

theorem word_xnn_of_op {op : Nibble} (h : fieldOp w = op) : op ++ fieldX w ++ fieldNN w = w := h ▸ (eq_word_xnn w).symm

theorem word_xyn_of_op {op : Nibble} (h : fieldOp w = op) : op ++ fieldX w ++ fieldY w ++ fieldN w = w :=
  h ▸ (eq_word_xyn w).symm

theorem word_xyn_of_op_n {op : Nibble} (h : fieldOp w = op) (hn : fieldN w = n) : op ++ fieldX w ++ fieldY w ++ n = w :=
  hn ▸ word_xyn_of_op h

/-! ### The encoder gives back the word of each second dispatch (R73) -/

theorem encode_of_decodeOp0 (h : decodeOp0 w = some i) : encode i = w := by
  unfold decodeOp0 at h
  split at h
  · cases h; exact Eq.symm ‹_›
  · split at h
    · cases h; exact Eq.symm ‹_›
    · cases h

theorem encode_of_decodeOp8 (h : decodeOp8 x y n = some i) : encode i = 0x8#4 ++ x ++ y ++ n := by
  unfold decodeOp8 at h
  split at h
  case h_10 => cases h
  all_goals
    rename_i hn
    rw [eq_ofNat_of_toNat hn]
    cases h
    rfl

theorem encode_of_decodeOpE (h : decodeOpE x nn = some i) : encode i = 0xE#4 ++ x ++ nn := by
  unfold decodeOpE at h
  split at h
  case h_3 => cases h
  all_goals
    rename_i hnn
    rw [eq_ofNat_of_toNat hnn]
    cases h
    rfl

theorem encode_of_decodeOpF (h : decodeOpF x nn = some i) : encode i = 0xF#4 ++ x ++ nn := by
  unfold decodeOpF at h
  split at h
  case h_10 => cases h
  all_goals
    rename_i hnn
    rw [eq_ofNat_of_toNat hnn]
    cases h
    rfl

/-- The encoder gives back the word, with every bit of it. -/
theorem encode_of_decode (h : decode w = some i) : encode i = w := by
  unfold decode at h
  split at h
  case h_1 => exact encode_of_decodeOp0 h
  case h_9 hop => exact (encode_of_decodeOp8 h).trans (word_xyn_of_op (eq_ofNat_of_toNat hop))
  case h_15 hop => exact (encode_of_decodeOpE h).trans (word_xnn_of_op (eq_ofNat_of_toNat hop))
  case h_16 hop => exact (encode_of_decodeOpF h).trans (word_xnn_of_op (eq_ofNat_of_toNat hop))
  case h_17 => cases h
  case h_6 hop | h_10 hop =>
    split at h
    · next hn => cases h; exact word_xyn_of_op_n (eq_ofNat_of_toNat hop) hn
    · cases h
  case h_14 hop => cases h; exact word_xyn_of_op (eq_ofNat_of_toNat hop)
  case h_4 hop | h_5 hop | h_7 hop | h_8 hop | h_13 hop =>
    cases h; exact word_xnn_of_op (eq_ofNat_of_toNat hop)
  case h_2 hop | h_3 hop | h_11 hop | h_12 hop =>
    cases h; exact word_nnn_of_op (eq_ofNat_of_toNat hop)

/-! ### The rows of the opcode map that select a word (R74) -/

theorem row_selects_encode (i : Instr) : (opcodeRow i).selects (encode i) = true := by
  cases i with
  | cls => exact Laws.RowMatch.cls
  | ret => exact Laws.RowMatch.ret
  | jp nnn => exact Laws.RowMatch.jp nnn
  | call nnn => exact Laws.RowMatch.call nnn
  | seImm x nn => exact Laws.RowMatch.seImm x nn
  | sneImm x nn => exact Laws.RowMatch.sneImm x nn
  | seReg x y => exact Laws.RowMatch.seReg x y
  | ldImm x nn => exact Laws.RowMatch.ldImm x nn
  | addImm x nn => exact Laws.RowMatch.addImm x nn
  | ldReg x y => exact Laws.RowMatch.ldReg x y
  | orReg x y => exact Laws.RowMatch.orReg x y
  | andReg x y => exact Laws.RowMatch.andReg x y
  | xorReg x y => exact Laws.RowMatch.xorReg x y
  | addReg x y => exact Laws.RowMatch.addReg x y
  | subReg x y => exact Laws.RowMatch.subReg x y
  | shr x y => exact Laws.RowMatch.shr x y
  | subnReg x y => exact Laws.RowMatch.subnReg x y
  | shl x y => exact Laws.RowMatch.shl x y
  | sneReg x y => exact Laws.RowMatch.sneReg x y
  | ldI nnn => exact Laws.RowMatch.ldI nnn
  | jpV0 nnn => exact Laws.RowMatch.jpV0 nnn
  | rnd x nn => exact Laws.RowMatch.rnd x nn
  | drw x y n => exact Laws.RowMatch.drw x y n
  | skp x => exact Laws.RowMatch.skp x
  | sknp x => exact Laws.RowMatch.sknp x
  | ldVxDt x => exact Laws.RowMatch.ldVxDt x
  | ldVxK x => exact Laws.RowMatch.ldVxK x
  | ldDtVx x => exact Laws.RowMatch.ldDtVx x
  | ldStVx x => exact Laws.RowMatch.ldStVx x
  | addI x => exact Laws.RowMatch.addI x
  | ldF x => exact Laws.RowMatch.ldF x
  | ldB x => exact Laws.RowMatch.ldB x
  | storeRegs x => exact Laws.RowMatch.storeRegs x
  | loadRegs x => exact Laws.RowMatch.loadRegs x

/-- A row that tests op alone selects the words of that op. -/
theorem fieldOp_of_selects {op : Nibble} (h : (OpcodeRow.mk 0xF000 (op ++ 0#12)).selects w = true) : fieldOp w = op := by
  have hmask : fieldOp w ++ 0#12 = op ++ 0#12 := (and_maskOp w).symm.trans (beq_iff_eq.1 h)
  simpa only [fieldOp_nnn] using congrArg fieldOp hmask

/-- A row that tests op and N. -/
theorem word_of_selects_opN {op : Nibble} (h : (OpcodeRow.mk 0xF00F (op ++ 0#4 ++ 0#4 ++ n)).selects w = true) :
    op ++ fieldX w ++ fieldY w ++ n = w := by
  have hmask : fieldOp w ++ 0#4 ++ 0#4 ++ fieldN w = op ++ 0#4 ++ 0#4 ++ n := (and_maskOpN w).symm.trans (beq_iff_eq.1 h)
  have hop : fieldOp w = op := by simpa only [fieldOp_xyn] using congrArg fieldOp hmask
  have hn : fieldN w = n := by simpa only [fieldN_xyn] using congrArg fieldN hmask
  exact word_xyn_of_op_n hop hn

/-- A row that tests op and NN. -/
theorem word_of_selects_opNN {op : Nibble} (h : (OpcodeRow.mk 0xF0FF (op ++ 0#4 ++ nn)).selects w = true) :
    op ++ fieldX w ++ nn = w := by
  have hmask : fieldOp w ++ 0#4 ++ fieldNN w = op ++ 0#4 ++ nn := (and_maskOpNN w).symm.trans (beq_iff_eq.1 h)
  have hop : fieldOp w = op := by simpa only [fieldOp_xnn] using congrArg fieldOp hmask
  have hnn : fieldNN w = nn := by simpa only [fieldNN_xnn] using congrArg fieldNN hmask
  exact hnn ▸ word_xnn_of_op hop

/-- A row that tests all 16 bits. -/
theorem word_of_selects_all {a : Word} (h : (OpcodeRow.mk 0xFFFF a).selects w = true) : a = w := by
  have hmask : w &&& 0xFFFF#16 = a := beq_iff_eq.1 h
  exact hmask.symm.trans BitVec.and_allOnes

/-- A word that a row selects is the encoding of an instruction of that row, with the word's own operands. -/
theorem encode_of_selects (h : (opcodeRow i).selects w = true) : ∃ j, encode j = w ∧ opcodeRow j = opcodeRow i := by
  cases i with
  | cls => exact ⟨.cls, word_of_selects_all h, rfl⟩
  | ret => exact ⟨.ret, word_of_selects_all h, rfl⟩
  | jp => exact ⟨.jp _, word_nnn_of_op (fieldOp_of_selects h), rfl⟩
  | call => exact ⟨.call _, word_nnn_of_op (fieldOp_of_selects h), rfl⟩
  | seImm => exact ⟨.seImm _ _, word_xnn_of_op (fieldOp_of_selects h), rfl⟩
  | sneImm => exact ⟨.sneImm _ _, word_xnn_of_op (fieldOp_of_selects h), rfl⟩
  | seReg => exact ⟨.seReg _ _, word_of_selects_opN h, rfl⟩
  | ldImm => exact ⟨.ldImm _ _, word_xnn_of_op (fieldOp_of_selects h), rfl⟩
  | addImm => exact ⟨.addImm _ _, word_xnn_of_op (fieldOp_of_selects h), rfl⟩
  | ldReg => exact ⟨.ldReg _ _, word_of_selects_opN h, rfl⟩
  | orReg => exact ⟨.orReg _ _, word_of_selects_opN h, rfl⟩
  | andReg => exact ⟨.andReg _ _, word_of_selects_opN h, rfl⟩
  | xorReg => exact ⟨.xorReg _ _, word_of_selects_opN h, rfl⟩
  | addReg => exact ⟨.addReg _ _, word_of_selects_opN h, rfl⟩
  | subReg => exact ⟨.subReg _ _, word_of_selects_opN h, rfl⟩
  | shr => exact ⟨.shr _ _, word_of_selects_opN h, rfl⟩
  | subnReg => exact ⟨.subnReg _ _, word_of_selects_opN h, rfl⟩
  | shl => exact ⟨.shl _ _, word_of_selects_opN h, rfl⟩
  | sneReg => exact ⟨.sneReg _ _, word_of_selects_opN h, rfl⟩
  | ldI => exact ⟨.ldI _, word_nnn_of_op (fieldOp_of_selects h), rfl⟩
  | jpV0 => exact ⟨.jpV0 _, word_nnn_of_op (fieldOp_of_selects h), rfl⟩
  | rnd => exact ⟨.rnd _ _, word_xnn_of_op (fieldOp_of_selects h), rfl⟩
  | drw => exact ⟨.drw _ _ _, word_xyn_of_op (fieldOp_of_selects h), rfl⟩
  | skp => exact ⟨.skp _, word_of_selects_opNN h, rfl⟩
  | sknp => exact ⟨.sknp _, word_of_selects_opNN h, rfl⟩
  | ldVxDt => exact ⟨.ldVxDt _, word_of_selects_opNN h, rfl⟩
  | ldVxK => exact ⟨.ldVxK _, word_of_selects_opNN h, rfl⟩
  | ldDtVx => exact ⟨.ldDtVx _, word_of_selects_opNN h, rfl⟩
  | ldStVx => exact ⟨.ldStVx _, word_of_selects_opNN h, rfl⟩
  | addI => exact ⟨.addI _, word_of_selects_opNN h, rfl⟩
  | ldF => exact ⟨.ldF _, word_of_selects_opNN h, rfl⟩
  | ldB => exact ⟨.ldB _, word_of_selects_opNN h, rfl⟩
  | storeRegs => exact ⟨.storeRegs _, word_of_selects_opNN h, rfl⟩
  | loadRegs => exact ⟨.loadRegs _, word_of_selects_opNN h, rfl⟩

/-! ### The words that no row selects (R75) -/

theorem decodeOp0_eq_none_iff : decodeOp0 w = none ↔ w ≠ 0x00E0#16 ∧ w ≠ 0x00EE#16 := by
  unfold decodeOp0
  split_ifs <;> simp_all

theorem decodeOp8_eq_none_iff :
    decodeOp8 x y n = none ↔ n ∈ [0x8#4, 0x9#4, 0xA#4, 0xB#4, 0xC#4, 0xD#4, 0xF#4] := by
  unfold decodeOp8
  split
  case h_10 =>
    have := n.isLt
    simp only [imp_false] at *
    simp only [List.mem_cons, ← BitVec.toNat_inj, BitVec.toNat_ofNat, Nat.reducePow, Nat.reduceMod, Nat.mod_succ,
      List.not_mem_nil, or_false, true_iff]
    omega
  all_goals
    rename_i hn
    rw [eq_ofNat_of_toNat hn]
    simp

theorem decodeOpE_eq_none_iff : decodeOpE x nn = none ↔ nn ∉ [0x9E#8, 0xA1#8] := by
  unfold decodeOpE
  split
  case h_3 =>
    simp only [imp_false] at *
    simp [← BitVec.toNat_inj, *]
  all_goals simp [← BitVec.toNat_inj, *]

theorem decodeOpF_eq_none_iff : decodeOpF x nn = none ↔
    nn ∉ [0x07#8, 0x0A#8, 0x15#8, 0x18#8, 0x1E#8, 0x29#8, 0x33#8, 0x55#8, 0x65#8] := by
  unfold decodeOpF
  split
  case h_10 =>
    simp only [imp_false] at *
    simp [← BitVec.toNat_inj, *]
  all_goals simp [← BitVec.toNat_inj, *]

end Words

/-- Settles O3: the decoder's cases, each by its fields put together again. -/
theorem encodeOfDecodedGivesWord : Obligations.EncodeOfDecodedGivesWord := fun _ _ => encode_of_decode

/-- Settles O4: a row selects exactly the encodings of its own instructions, and encoding and decoding are inverse. -/
theorem decodeFollowsOpcodeMap : Obligations.DecodeFollowsOpcodeMap := by
  refine fun w => ⟨fun i hdecode => ?_, fun i hselects => ?_⟩
  · rw [← encode_of_decode hdecode]
    exact row_selects_encode i
  · obtain ⟨j, hencode, hrow⟩ := encode_of_selects hselects
    exact ⟨j, decode_of_encode_eq hencode, hrow⟩

/-- Settles O5: the op decides the class, and where it has a second dispatch, that one decides whether a row is left. -/
theorem unimplementedWordsAreTheSixClasses : Obligations.UnimplementedWordsAreTheSixClasses := by
  intro w
  unfold decode
  split
  case h_17 =>
    have := (fieldOp w).isLt
    simp only [imp_false] at *
    omega
  all_goals
    rename_i hop
    simp [eq_ofNat_of_toNat hop, decodeOp0_eq_none_iff, decodeOp8_eq_none_iff, decodeOpE_eq_none_iff,
      decodeOpF_eq_none_iff]

end Sys2Proof.Proofs

/-! # Proofs: what an instruction writes and what it reads (40_step_cycle.md R95, R97) -/

namespace Sys2Proof.Proofs

open Sys2Proof.Machine

/-- Where the instruction i completes in s, it leaves a state with P: `exec` is its one check, then a state with P. -/
def Leaves (i : Instr) (s : State) (P : State → Prop) : Prop :=
  ∃ u, exec i s = check (instrOk s i) (instrFault s i) (.next u) ∧ P u

section Frames

variable {i : Instr} {s t : State} {f : Footprint}

theorem Leaves.of_next {P : State → Prop} (h : Leaves i s P) (hnext : exec i s = .next t) : P t := by
  obtain ⟨u, hcheck, hu⟩ := h
  obtain ⟨-, rfl⟩ := check_next_iff.1 (hcheck ▸ hnext)
  exact hu

theorem instrOk_of_next (h : exec i s = .next t) : instrOk s i = true := exec_next_iff.1 ⟨t, h⟩

/-! ### The shapes of next states and their frames -/

theorem keeps_result (s : State) {x : Nibble} (b : Byte) (h : f.regs x) : Keeps f s (s.setReg x b).advance :=
  (keeps_setReg s b h).trans (keeps_advance _ _)

/-- A write of VF, then of a register. -/
theorem keeps_flagThenResult (s : State) {x : Nibble} (flag b : Byte) (hf : f.regs vf) (h : f.regs x) :
    Keeps f s ((s.setFlag flag).setReg x b).advance :=
  (keeps_setReg s flag hf).trans (keeps_result _ b h)

theorem keeps_keyWait (s : State) {x : Nibble} (key : Option Nat) (h : f.regs x) (hs : f.status = true) :
    Keeps f s (s.keyWait x key) := by
  cases key with
  | some k => exact keeps_result s _ h
  | none => exact keeps_setStatus s _ hs

end Frames

/-- Each instruction's next state is a chain of writes, and its footprint names each of them. -/
theorem leaves_footprint (i : Instr) (s : State) : Leaves i s (Keeps (footprint s i) s) := by
  cases i with
  | cls => exact ⟨_, rfl, (keeps_setFb s _ rfl).trans (keeps_advance _ _)⟩
  | ret => exact ⟨_, rfl, (keeps_pop s rfl).trans (keeps_setPc _ _ _)⟩
  | jp nnn => exact ⟨_, rfl, keeps_setPc _ _ _⟩
  | call nnn => exact ⟨_, rfl, (keeps_push s _ rfl).trans (keeps_setPc _ _ _)⟩
  | seImm x nn => exact ⟨_, rfl, keeps_skipIf _ _ _⟩
  | sneImm x nn => exact ⟨_, rfl, keeps_skipIf _ _ _⟩
  | seReg x y => exact ⟨_, rfl, keeps_skipIf _ _ _⟩
  | ldImm x nn => exact ⟨_, rfl, keeps_result s _ rfl⟩
  | addImm x nn => exact ⟨_, rfl, keeps_result s _ rfl⟩
  | ldReg x y => exact ⟨_, rfl, keeps_result s _ rfl⟩
  | orReg x y => exact ⟨_, rfl, keeps_result s _ rfl⟩
  | andReg x y => exact ⟨_, rfl, keeps_result s _ rfl⟩
  | xorReg x y => exact ⟨_, rfl, keeps_result s _ rfl⟩
  | addReg x y => exact ⟨_, rfl, keeps_flagThenResult s _ _ (.inr rfl) (.inl rfl)⟩
  | subReg x y => exact ⟨_, rfl, keeps_flagThenResult s _ _ (.inr rfl) (.inl rfl)⟩
  | shr x y => exact ⟨_, rfl, keeps_flagThenResult s _ _ (.inr rfl) (.inl rfl)⟩
  | subnReg x y => exact ⟨_, rfl, keeps_flagThenResult s _ _ (.inr rfl) (.inl rfl)⟩
  | shl x y => exact ⟨_, rfl, keeps_flagThenResult s _ _ (.inr rfl) (.inl rfl)⟩
  | sneReg x y => exact ⟨_, rfl, keeps_skipIf _ _ _⟩
  | ldI nnn => exact ⟨_, rfl, keeps_setI_advance s _ rfl⟩
  | jpV0 nnn => exact ⟨_, rfl, keeps_setPc _ _ _⟩
  | rnd x nn => exact ⟨_, rfl, keeps_result s _ rfl⟩
  | drw x y n => exact ⟨_, rfl, (keeps_setFb s _ rfl).trans (keeps_result _ _ rfl)⟩
  | skp x => exact ⟨_, rfl, keeps_skipIf _ _ _⟩
  | sknp x => exact ⟨_, rfl, keeps_skipIf _ _ _⟩
  | ldVxDt x => exact ⟨_, rfl, keeps_result s _ rfl⟩
  | ldVxK x => exact ⟨_, rfl, keeps_keyWait s _ rfl rfl⟩
  | ldDtVx x => exact ⟨_, rfl, (keeps_setDt s _ rfl).trans (keeps_advance _ _)⟩
  | ldStVx x => exact ⟨_, rfl, (keeps_setSt s _ rfl).trans (keeps_advance _ _)⟩
  | addI x => exact ⟨_, rfl, (keeps_setReg s _ rfl).trans (keeps_setI_advance _ _ rfl)⟩
  | ldF x => exact ⟨_, rfl, keeps_setI_advance s _ rfl⟩
  | ldB x =>
    have hstore : Keeps (footprint s (.ldB x)) s (s.setMem (s.mem.store s.dataAddr (bcdDigits (s.reg x)))) :=
      keeps_store s _ fun _ hlo hhi => ⟨hlo, hhi⟩
    exact ⟨_, rfl, hstore.trans (keeps_advance _ _)⟩
  | storeRegs x =>
    have hstore : Keeps (footprint s (.storeRegs x)) s (s.setMem (s.mem.store s.dataAddr (s.firstRegs x))) :=
      keeps_store s _ fun _ hlo hhi => ⟨hlo, hhi.trans_eq (congrArg _ (firstRegs_length s x))⟩
    exact ⟨_, rfl, hstore.trans (keeps_setI_advance _ _ rfl)⟩
  | loadRegs x =>
    exact ⟨_, rfl, (keeps_loadInto s.mem s.dataAddr (regCount_le x) fun _ hr => Nat.le_of_lt_succ hr).trans
      (keeps_setI_advance _ _ rfl)⟩

theorem exec_keeps {i : Instr} {s t : State} (h : exec i s = .next t) : Keeps (footprint s i) s t :=
  (leaves_footprint i s).of_next h

/-- Settles O17: the frame of each instruction, where it completes. -/
theorem instructionsWriteOnlyTheirFootprint : Obligations.InstructionsWriteOnlyTheirFootprint := fun _ _ _ => exec_keeps

/-- Settles O16: each instruction is one check, and both its ways out are answers of a step. -/
theorem noInstructionIsRefused : Obligations.NoInstructionIsRefused := by
  intro i s
  rcases h : exec i s with t | f | r
  · exact .inl ⟨t, rfl⟩
  · exact .inr ⟨f, rfl⟩
  · exact absurd h (exec_ne_refused i s r)

/-! ### What an instruction does not read (R97) -/

/-- The state with another `rand_in`. -/
def withRandIn (b : Byte) (s : State) : State := { s with randIn := b }

/-- The state with another key state. -/
def withKeys (ks : BitVec 16) (s : State) : State := { s with keys := ks }

/-- Running i commutes with the change g of the state: behind g its check is the same, and it leaves g of the same state. -/
def CommutesWith (g : State → State) (i : Instr) (s : State) : Prop :=
  Leaves i s fun u => exec i (g s) = check (instrOk s i) (instrFault s i) (.next (g u))

section Inputs

variable {i : Instr} {s : State} {g : State → State}

/-- Both ways out of the instruction's check are the same behind g. -/
theorem CommutesWith.answers (h : CommutesWith g i s) :
    (∀ t, exec i s = .next t → exec i (g s) = .next (g t)) ∧
      ∀ f, exec i s = .fault f → exec i (g s) = .fault f := by
  obtain ⟨u, hrun, hrun'⟩ := h
  rw [hrun, hrun']
  cases instrOk s i <;> simp

theorem exec_call (nnn : Addr12) (s : State) : exec (.call nnn) s =
    check (instrOk s (.call nnn)) (instrFault s (.call nnn)) (.next ((s.push s.pc).setPc (absolute nnn))) := rfl

theorem push_withRandIn (b : Byte) (s : State) (a : Word) : (withRandIn b s).push a = withRandIn b (s.push a) := by
  unfold State.push withRandIn
  split <;> rfl

theorem push_withKeys (ks : BitVec 16) (s : State) (a : Word) : (withKeys ks s).push a = withKeys ks (s.push a) := by
  unfold State.push withKeys
  split <;> rfl

theorem keyWait_withRandIn (b : Byte) (s : State) (x : Nibble) (key : Option Nat) :
    (withRandIn b s).keyWait x key = withRandIn b (s.keyWait x key) := by cases key <;> rfl

/-- Where a write chain does not read `rand_in`, the change passes through it by computation; the push of a CALL and the
wait of FX0A branch first. -/
theorem commutesWith_withRandIn (b : Byte) (h : ∀ x nn, i ≠ .rnd x nn) : CommutesWith (withRandIn b) i s := by
  cases i
  case rnd x nn => exact absurd rfl (h x nn)
  case call nnn =>
    refine ⟨_, rfl, ?_⟩
    rw [exec_call, push_withRandIn]
    rfl
  case ldVxK x => exact ⟨_, rfl, congrArg Host.Outcome.next (keyWait_withRandIn b s x s.lowestKey)⟩
  all_goals exact ⟨_, rfl, rfl⟩

/-- The same for the key state, outside the three instructions that read it. -/
theorem commutesWith_withKeys (ks : BitVec 16) (h : ∀ x, i ≠ .skp x ∧ i ≠ .sknp x ∧ i ≠ .ldVxK x) :
    CommutesWith (withKeys ks) i s := by
  cases i
  case skp x => exact absurd rfl (h x).1
  case sknp x => exact absurd rfl (h x).2.1
  case ldVxK x => exact absurd rfl (h x).2.2
  case call nnn =>
    refine ⟨_, rfl, ?_⟩
    rw [exec_call, push_withKeys]
    rfl
  all_goals exact ⟨_, rfl, rfl⟩

end Inputs

/-- Settles O19: every instruction but the named ones commutes with a change of the input. -/
theorem inputsSeenOnlyByTheirInstructions : Obligations.InputsSeenOnlyByTheirInstructions := fun _ _ =>
  ⟨fun b h => (commutesWith_withRandIn b h).answers, fun ks h => (commutesWith_withKeys ks h).answers⟩

end Sys2Proof.Proofs

/-! # Proofs: the phases of a step and what holds over steps (40_step_cycle.md R91 to R97) -/

namespace Sys2Proof.Proofs

open Sys2Proof.Machine

section Phases

variable {s t : State}

/-! ### What a completed step keeps -/

/-- A completed step is an instruction within its footprint, then the tick. -/
theorem step_next_keeps (h : step s = .next t) :
    ∃ i u, decode s.fetch = some i ∧ exec i s.sample = .next u ∧ t = u.tick ∧
      Keeps (footprint s.sample i) s.sample u := by
  obtain ⟨-, i, u, hdecode, hexec, ht⟩ := step_next_iff.1 h
  exact ⟨i, u, hdecode, hexec, ht, exec_keeps hexec⟩

theorem footprint_calls (s : State) (i : Instr) :
    (footprint s i).calls = false ∨ i = .ret ∨ ∃ nnn, i = .call nnn := by
  cases i
  case ret => exact .inr (.inl rfl)
  case call nnn => exact .inr (.inr ⟨nnn, rfl⟩)
  all_goals exact .inl rfl

theorem footprint_delay (s : State) (i : Instr) : (footprint s i).delay = false ∨ ∃ x, i = .ldDtVx x := by
  cases i
  case ldDtVx x => exact .inr ⟨x, rfl⟩
  all_goals exact .inl rfl

/-- Whatever its outcome, a step leaves the inputs as the sample took them: no instruction and no tick writes them. -/
theorem stateAfter_inputs (s : State) : (stateAfter s).keys = s.nextInput.keysIn ∧
    (stateAfter s).randIn = s.nextInput.randIn ∧ (stateAfter s).inputs = s.inputs.tail := by
  by_cases h : ∃ t, step s = .next t
  · obtain ⟨t, hnext⟩ := h
    obtain ⟨i, u, -, -, rfl, hkeeps⟩ := step_next_keeps hnext
    obtain ⟨hrand, hinputs, -⟩ := hkeeps.inputs
    rw [stateAfter_next hnext]
    exact ⟨hkeeps.keys, hrand, hinputs⟩
  · obtain ⟨o, hleft⟩ := stateAfter_of_not_next (not_exists.1 h)
    rw [hleft]
    exact ⟨rfl, rfl, rfl⟩

/-- Without an FX15 a completed step takes the delay timer down by its tick alone. -/
theorem step_next_dt (h : step s = .next t) (hno : ∀ x, decode s.fetch ≠ some (.ldDtVx x)) :
    t.dt.toNat = s.dt.toNat - 1 := by
  obtain ⟨i, u, hdecode, -, rfl, hkeeps⟩ := step_next_keeps h
  obtain hdelay | ⟨x, rfl⟩ := footprint_delay s.sample i
  · rw [State.tick_dt, tickByte_toNat, hkeeps.delay hdelay, State.sample_dt]
  · exact absurd hdecode (hno x)

/-! ### SP under a call and a return (R100, R102) -/

theorem exec_ret_next (h : exec .ret s = .next t) : 0 < s.sp.val ∧ t = s.pop.setPc (s.top + 2#16) := by
  have hpos : 0 < s.sp.val := of_decide_eq_true (instrOk_of_next h)
  rw [exec_ret_of_pos hpos] at h
  exact ⟨hpos, (answer_next_inj.1 h).symm⟩

theorem exec_call_next {nnn : Addr12} (h : exec (.call nnn) s = .next t) :
    s.sp.val < 16 ∧ t = (s.push s.pc).setPc (absolute nnn) := by
  have hlt : s.sp.val < 16 := of_decide_eq_true (instrOk_of_next h)
  rw [exec_call_of_lt nnn hlt] at h
  exact ⟨hlt, (answer_next_inj.1 h).symm⟩

end Phases

/-- Settles O6: the fetched word is the number of its two bytes, and `finish` is the tick or the added word. -/
theorem stepRunsTheDecodedInstruction : Obligations.StepRunsTheDecodedInstruction := by
  intro s w i hrange hword hdecode
  obtain rfl : w = s.fetch := BitVec.eq_of_toNat_eq (hword.trans (fetch_toNat s).symm)
  rw [step_of_decode (fetchOk_iff.2 hrange) hdecode]
  cases exec i s.sample <;> rfl

/-- Settles O8: neither phase's record update names any other field. -/
theorem sampleAndTickWriteOnlyTheirParts : Obligations.SampleAndTickWriteOnlyTheirParts := by
  rintro s _ _ rfl rfl
  refine ⟨⟨s.sample_reg, ?_⟩, s.tick_reg, ?_⟩ <;> simp

/-- Settles O11: the fetch's own check fails, and its error names the first of the two addresses outside. -/
theorem fetchOutOfRangeIsFatal : Obligations.FetchOutOfRangeIsFatal := fun s hout => by
  rw [step_of_fetchFault (fetchOk_false_iff.2 hout), fetchFault_eq]

/-- Settles O7: the inputs after a step are those of the sample, which takes the head of the queue or the free values. -/
theorem keySampleStandsInEveryOutcome : Obligations.KeySampleStandsInEveryOutcome := by
  intro s
  obtain ⟨hkeys, hrand, hinputs⟩ := stateAfter_inputs s
  refine ⟨fun input rest hqueue => ?_, fun hempty => ?_⟩
  · have hnext : s.nextInput = input := by rw [State.nextInput, hqueue]
    exact ⟨fun k _ => by rw [State.keyDown, hkeys, hnext], by rw [hrand, hnext], by rw [hinputs, hqueue]; rfl⟩
  · have hnext : s.nextInput = ⟨Config.freeKeys s.stepNo, Config.freeRand s.stepNo⟩ := by rw [State.nextInput, hempty]
    exact ⟨by rw [hkeys, hnext], by rw [hrand, hnext]⟩

/-- Settles O10, by induction on the number of steps: each takes the timer down by one, and 0 stays 0. -/
theorem delayTimerCountsDownOverSteps : Obligations.DelayTimerCountsDownOverSteps := by
  intro n run hrun
  induction n with
  | zero => rfl
  | succ n ih =>
    obtain ⟨hnext, hno⟩ := hrun n n.lt_succ_self
    rw [step_next_dt hnext hno, ih fun k hk => hrun k (Nat.lt_succ_of_lt hk), Nat.sub_sub]

/-- Settles O18: outside 00EE and 2NNN the frame keeps SP; a return pops one slot and a call pushes one. -/
theorem onlyCallAndReturnMoveSP : Obligations.OnlyCallAndReturnMoveSP := by
  intro s t hnext
  obtain ⟨i, u, hdecode, hexec, rfl, hkeeps⟩ := step_next_keeps hnext
  obtain hcalls | rfl | ⟨nnn, rfl⟩ := footprint_calls s.sample i
  · exact .inl (hkeeps.calls hcalls).1
  · obtain ⟨hpos, rfl⟩ := exec_ret_next hexec
    exact .inr (.inr ⟨Nat.sub_add_cancel hpos, hdecode⟩)
  · obtain ⟨hlt, rfl⟩ := exec_call_next hexec
    exact .inr (.inl ⟨s.sample.push_sp hlt, nnn, hdecode⟩)

/-! ### A failed step fails again (R96) -/

/-- What the fetch and the checks of a step read is the same in both states. -/
structure AgreeOnChecks (s t : State) : Prop where
  v : t.v = s.v
  i : t.i = s.i
  pc : t.pc = s.pc
  sp : t.sp = s.sp
  mem : t.mem = s.mem

section Agree

variable {s t u : State}

theorem AgreeOnChecks.trans (h : AgreeOnChecks s t) (h' : AgreeOnChecks t u) : AgreeOnChecks s u :=
  ⟨h'.v.trans h.v, h'.i.trans h.i, h'.pc.trans h.pc, h'.sp.trans h.sp, h'.mem.trans h.mem⟩

theorem AgreeOnChecks.instrOk_eq (h : AgreeOnChecks s t) (i : Instr) : instrOk t i = instrOk s i := by
  cases i <;> simp only [instrOk, h.sp, State.dataAddr, h.i, State.reg_congr h.v]

theorem AgreeOnChecks.instrFault_eq (h : AgreeOnChecks s t) (i : Instr) : instrFault t i = instrFault s i := by
  cases i <;> simp only [instrFault, h.pc, h.sp, State.dataFault, h.i, State.reg_congr h.v]

theorem AgreeOnChecks.fetchFault_eq (h : AgreeOnChecks s t) : t.fetchFault = s.fetchFault := by
  simp only [State.fetchFault, h.pc]

theorem AgreeOnChecks.step_fault (h : AgreeOnChecks s t) {f : Fault} (hs : step s = .fault f) : step t = .fault f := by
  rw [step_fault_iff] at hs ⊢
  simpa only [fetchOk_congr h.pc, fetch_congr h.pc h.mem, h.fetchFault_eq, instrOk_sample, instrFault_sample, h.instrOk_eq,
    h.instrFault_eq] using hs

theorem AgreeOnChecks.step_refused (h : AgreeOnChecks s t) {r : Refusal} (hs : step s = .refused r) :
    step t = .refused r := step_refused_congr h.pc h.mem hs

/-- A state that agrees with one whose step fails has a failing step. -/
theorem AgreeOnChecks.step_ne_next (h : AgreeOnChecks s t) (hs : ∀ u, step s ≠ .next u) (u : State) :
    step t ≠ .next u := by
  obtain ⟨v, hv⟩ | ⟨f, hf⟩ | ⟨w, hw⟩ := step_trichotomy s
  · exact absurd hv (hs v)
  · simp [h.step_fault hf]
  · simp [h.step_refused hw]

/-- From a failing step on, every later state agrees with the first: each step leaves the sampled state with a `status`. -/
theorem agree_laterState (supplied : Nat → List StepInput) (hs : ∀ u, step s ≠ .next u) (n : Nat) :
    AgreeOnChecks s (laterState supplied s n) := by
  induction n with
  | zero => exact ⟨rfl, rfl, rfl, rfl, rfl⟩
  | succ n ih =>
    obtain ⟨o, hleft⟩ := stateAfter_of_not_next (ih.step_ne_next hs)
    refine ih.trans ?_
    rw [laterState, hleft]
    exact ⟨rfl, rfl, rfl, rfl, rfl⟩

end Agree

/-- Settles O14: every later state agrees with s on what the fetch and the checks read, so it fails with the same payload. -/
theorem errorsPersistOverLaterSteps : Obligations.ErrorsPersistOverLaterSteps := by
  refine fun s n supplied => ⟨fun f hfault => ?_, fun w hrefused => ?_⟩
  · exact (agree_laterState supplied (by simp [hfault]) n).step_fault hfault
  · exact (agree_laterState supplied (by simp [hrefused]) n).step_refused hrefused

end Sys2Proof.Proofs

/-! # Proofs: the memory as data, stored bytes read later (20_memory.md R64, 44_index_memory.md R144, R145) -/

namespace Sys2Proof.Proofs

open Sys2Proof.Machine

section Stored

/-! ### Canonical memories (log entry 9) -/

/-- Nothing is listed below the head of a canonical memory. -/
theorem read_below_head {k : Nat} {b : Byte} {m : Memory} (h : Memory.wf ((k, b) :: m)) {a : Nat} (ha : a < k) :
    Memory.read ((k, b) :: m) a = 0#8 := by
  refine Memory.read_of_lt fun c hc => ?_
  obtain rfl | hc := List.mem_cons.1 hc
  · exact ha
  · exact ha.trans ((Memory.wf_cons.1 h).1 c hc)

/-- No listed byte of a canonical memory is 0. -/
theorem read_head_ne_zero {k : Nat} {b : Byte} {m : Memory} (h : Memory.wf ((k, b) :: m)) :
    Memory.read ((k, b) :: m) k ≠ 0#8 := by
  obtain ⟨-, -, hb, -⟩ := Memory.wf_cons.1 h
  rwa [Memory.read_cons, if_pos rfl]

/-- Of two canonical memories that read the same, neither lists an address below the other's first. -/
theorem head_le_head {k k' : Nat} {b b' : Byte} {m m' : Memory} (h : Memory.wf ((k, b) :: m))
    (h' : Memory.wf ((k', b') :: m')) (hread : ∀ a, Memory.read ((k, b) :: m) a = Memory.read ((k', b') :: m') a) :
    k ≤ k' := by
  by_contra hlt
  exact read_head_ne_zero h' ((hread k').symm.trans (read_below_head h (Nat.not_le.1 hlt)))

/-- Behind the head a canonical memory reads as its tail, and at the head's address the tail reads 0. -/
theorem read_tail {k : Nat} {b : Byte} {m : Memory} (h : Memory.wf ((k, b) :: m)) (a : Nat) :
    Memory.read m a = if a = k then 0#8 else Memory.read ((k, b) :: m) a := by
  split
  · next ha => exact Memory.read_of_lt fun c hc => ha ▸ (Memory.wf_cons.1 h).1 c hc
  · next ha => rw [Memory.read_cons, if_neg ha]

theorem eq_of_read_eq {m m' : Memory} (h : m.wf) (h' : m'.wf) (hread : ∀ a, m.read a = m'.read a) : m = m' := by
  induction m generalizing m' with
  | nil =>
    cases m' with
    | nil => rfl
    | cons c' m' => exact absurd (hread c'.1).symm (read_head_ne_zero h')
  | cons c m ih =>
    cases m' with
    | nil => exact absurd (hread c.1) (read_head_ne_zero h)
    | cons c' m' =>
      obtain ⟨k, b⟩ := c
      obtain ⟨k', b'⟩ := c'
      obtain rfl : k = k' := Nat.le_antisymm (head_le_head h h' hread) (head_le_head h' h fun a => (hread a).symm)
      have hb : b = b' := by simpa [Memory.read_cons] using hread k
      obtain ⟨-, -, -, hm⟩ := Memory.wf_cons.1 h
      obtain ⟨-, -, -, hm'⟩ := Memory.wf_cons.1 h'
      have htail : m = m' := ih hm hm' fun a => by rw [read_tail h, read_tail h', hread]
      rw [hb, htail]

/-! ### What a completed FX55 has stored -/

variable {s t : State} {x : Nibble}

/-- The access of a completed FX55 ends in the memory. -/
theorem storeRegs_in_memory (h : exec (.storeRegs x) s = .next t) : s.i.toNat + x.toNat ≤ 0xFFF := by
  by_contra hout
  have hfail : instrOk s (.storeRegs x) = false := accessOk_regCount_false_iff.2 (Nat.not_le.1 hout)
  exact Bool.false_ne_true (hfail.symm.trans (instrOk_of_next h))

/-- Vk stands at I + k, and I has moved past the stored bytes. -/
theorem storeRegs_stored (hwf : s.mem.wf) (h : exec (.storeRegs x) s = .next t) :
    (∀ k : Nibble, k.toNat ≤ x.toNat → t.mem.read (s.i.toNat + k.toNat) = s.reg k) ∧
      t.i.toNat = (s.i.toNat + x.toNat + 1) % 2 ^ 16 := by
  obtain ⟨-, -, hstores⟩ := storeRegsStoresAndAdvancesI x s hwf
  obtain ⟨t', hnext, hread, hi, -⟩ := hstores (storeRegs_in_memory h)
  obtain rfl := answer_next_inj.1 (hnext.symm.trans h)
  exact ⟨hread, hi⟩

end Stored

/-- Settles O24, by induction on both lists: the heads list the same address, the lowest that does not read 0. -/
theorem equalBytesMeanEqualMemory : Obligations.EqualBytesMeanEqualMemory := fun _ _ => eq_of_read_eq

/-- Settles O20: the two bytes fetched are the stored Vk and V(k+1). -/
theorem laterFetchSeesStoredRegisters : Obligations.LaterFetchSeesStoredRegisters := by
  intro x k l s t u hwf hstore hl hlx hmem hpc
  obtain ⟨hread, -⟩ := storeRegs_stored hwf hstore
  have hlow : t.mem.read u.pc.toNat = s.reg k := hpc ▸ hread k (by omega)
  have hhigh : t.mem.read (u.pc.toNat + 1) = s.reg l := by
    rw [← hread l hlx, hpc, hl, Nat.add_assoc]
  rw [fetch_toNat, hmem, hlow, hhigh]

/-- Settles O52: the load reads at I + k what the store put there, and both move I to the same address. -/
theorem storeThenLoadGivesRegistersBack : Obligations.StoreThenLoadGivesRegistersBack := by
  intro x s t u hwf hstore hmem hi
  obtain ⟨hread, hti⟩ := storeRegs_stored hwf hstore
  obtain ⟨-, -, hloads⟩ := loadRegsLoadsAndAdvancesI x u
  obtain ⟨v, hnext, hregs, hvi, -⟩ := hloads (hi ▸ storeRegs_in_memory hstore)
  refine ⟨v, hnext, fun k hk => ?_, BitVec.eq_of_toNat_eq (by rw [hvi, hti, hi])⟩
  rw [hregs k hk, State.dataAddr, hmem, hi, hread k hk]

end Sys2Proof.Proofs

/-! # Proofs: a return after a call, a second draw, the core before a load (41_flow.md R100, 45_display.md R162, R204) -/

namespace Sys2Proof.Proofs

open Sys2Proof.Machine

/-- Settles O33: the slot that the return reads is the one the call wrote, with the call's own address in it. -/
theorem returnAfterCallResumesBehindIt : Obligations.ReturnAfterCallResumesBehindIt := by
  intro nnn s t hcall
  obtain ⟨hlt, rfl⟩ := exec_call_next hcall
  have hsp : (s.push s.pc).sp.val = s.sp.val + 1 := s.push_sp hlt
  have htop : (s.push s.pc).top = s.pc := by
    rw [top_eq_slot (k := ⟨s.sp.val, hlt⟩) hsp.symm, push_slot hlt, if_pos rfl]
  refine ⟨_, exec_ret_of_pos (hsp ▸ Nat.succ_pos _), Fin.ext ?_, ?_⟩
  · exact congrArg (· - 1) hsp
  · exact (congrArg (fun a : Word => (a + 2#16).toNat) htop).trans (BitVec.toNat_add _ _)

section SecondDraw

variable {s u : State} {x y n : Nibble}

/-- The sprite depends on the memory, I, VX and VY alone. -/
theorem spriteOf_congr (hmem : u.mem = s.mem) (hi : u.i = s.i) (hx : u.reg x = s.reg x) (hy : u.reg y = s.reg y) :
    u.spriteOf x y n = s.spriteOf x y n := by
  simp only [State.spriteOf, State.dataAddr, hmem, hi, hx, hy]

/-- Toggling distinct cells twice gives the framebuffer back. -/
theorem drawCells_drawCells {cells : List (Nat × Nat)} (h : GridCells cells) (fb : Screen) :
    (drawCells (drawCells fb cells).1 cells).1 = fb := by
  refine screen_ext fun cx cy hx hy => ?_
  rw [drawCells_getCell h _ hx hy, drawCells_getCell h _ hx hy, Bool.xor_assoc, Bool.xor_self, Bool.xor_false]

/-- A cell under a set bit that was off is on after the draw, so a second draw collides there. -/
theorem collision_of_second_draw (fb : Screen)
    (h : ∃ cx cy, cx < 64 ∧ cy < 32 ∧ getCell fb cx cy = false ∧ s.spriteBit x y n cx cy) :
    (drawCells (drawCells fb (s.spriteOf x y n)).1 (s.spriteOf x y n)).2 = true := by
  obtain ⟨cx, cy, hx, hy, hoff, hbit⟩ := h
  refine (collision_drawSprite _).2 ⟨cx, cy, hx, hy, ?_, hbit⟩
  rw [getCell_drawSprite fb hx hy, hoff]
  simp [hbit]

theorem exec_drw (x y n : Nibble) (s : State) : exec (.drw x y n) s =
    check (accessOk s.dataAddr n.toNat) s.dataFault
      (.next ((s.setFb (drawCells s.fb (s.spriteOf x y n)).1).setFlag
        (flagByte (drawCells s.fb (s.spriteOf x y n)).2)).advance) := rfl

end SecondDraw

/-- Settles O55: the second draw has the same check and the same cells; two XORs of them cancel. -/
theorem secondDrawRestoresTheScreen : Obligations.SecondDrawRestoresTheScreen := by
  intro x y n s t u hdraw hfb hmem hi hx hy
  rw [exec_drw] at hdraw
  obtain ⟨hok, rfl⟩ := check_next_iff.1 hdraw
  have hcells : u.spriteOf x y n = s.spriteOf x y n := spriteOf_congr hmem hi hx hy
  have hok' : accessOk u.dataAddr n.toNat = true := by rwa [State.dataAddr, hi]
  refine ⟨_, (exec_drw x y n u).trans (check_next_iff.2 ⟨hok', rfl⟩), ?_, fun hoff => ?_⟩
  · rw [State.advance_fb, State.setFlag_fb, State.setFb_fb, hcells, hfb]
    exact drawCells_drawCells (gridCells_spriteOf s x y n) s.fb
  · rw [State.advance_reg, State.setFlag_reg, if_pos rfl, hcells, hfb]
    exact congrArg flagByte (collision_of_second_draw s.fb hoff)

/-! ### The word 0x0000 at 0x200 (R204) -/

/-- PC is at PROG_BASE, and the word there is 0x0000. -/
def ZeroWordAtStart (s : State) : Prop :=
  s.pc.toNat = 0x200 ∧ s.mem.read 0x200 = 0#8 ∧ s.mem.read 0x201 = 0#8

/-- 0x0000 is no instruction, so the step is refused and leaves PC and the memory. -/
theorem zeroWordAtStart_step {s : State} (h : ZeroWordAtStart s) :
    step s = .refused (.unimplemented 0x0000#16) ∧ ZeroWordAtStart (stateAfter s) := by
  obtain ⟨hpc, hhi, hlo⟩ := h
  have hfetch : s.fetch = 0x0000#16 := BitVec.eq_of_toNat_eq <| by rw [fetch_toNat, hpc, hhi, hlo]; rfl
  have hrefused : step s = .refused (.unimplemented 0x0000#16) :=
    hfetch ▸ step_of_unmatched (fetchOk_iff.2 (by omega)) (hfetch ▸ rfl)
  refine ⟨hrefused, ?_⟩
  rw [stateAfter_refused hrefused]
  exact ⟨hpc, hhi, hlo⟩

theorem zeroWordAtStart_laterState {s : State} (h : ZeroWordAtStart s) (supplied : Nat → List StepInput) (n : Nat) :
    ZeroWordAtStart (laterState supplied s n) := by
  induction n with
  | zero => exact h
  | succ n ih => exact (zeroWordAtStart_step ih).2

/-- Settles O60: 0x0000 is no instruction, and a refused step leaves PC and the memory. -/
theorem zeroWordAtStartStaysUnimplemented : Obligations.ZeroWordAtStartStaysUnimplemented := fun _ hpc hhi hlo =>
  zeroWordAtStart_step ⟨hpc, hhi, hlo⟩

/-- Settles O28, by induction on the steps: reset has the zero word at 0x200, and each step keeps it. -/
theorem unloadedCoreReportsUnimplementedZero : Obligations.UnloadedCoreReportsUnimplementedZero := fun n supplied =>
  have hzero : ZeroWordAtStart (laterState supplied State.reset n) :=
    zeroWordAtStart_laterState ⟨rfl, rfl, rfl⟩ supplied n
  ⟨(zeroWordAtStart_step hzero).1, BitVec.eq_of_toNat_eq hzero.1⟩

end Sys2Proof.Proofs

/-! # Proofs: the invariant (10_state.md R24, 41_flow.md R100, 20_memory.md R50) -/

namespace Sys2Proof.Proofs

open Sys2Proof.Machine

section Invariant

variable {i : Instr} {s t u : State}

/-! ### What an instruction does to the memory and to PC -/

/-- The memory behind an instruction: as it was, or with some bytes stored. -/
theorem leaves_mem (i : Instr) (s : State) : Leaves i s fun u => u.mem = s.mem ∨ ∃ a bs, u.mem = s.mem.store a bs := by
  cases i
  case ldB | storeRegs => exact ⟨_, rfl, .inr ⟨_, _, rfl⟩⟩
  case call => exact ⟨_, rfl, .inl (s.push_mem s.pc)⟩
  case ldVxK x => exact ⟨_, rfl, .inl (by cases s.lowestKey <;> rfl)⟩
  all_goals exact ⟨_, rfl, .inl rfl⟩

/-- The choices of R24 for PC behind the instruction i: as it was, the normal advance, a skip, a target that a jump or call
can name, or behind the address that a return pops. -/
inductive NextPc (s : State) (i : Instr) : Word → Prop where
  | stays : NextPc s i s.pc
  | advances : NextPc s i (s.pc + 2#16)
  | skips : NextPc s i (s.pc + 4#16)
  | jumps {a : Word} (h : a.toNat ≤ 0x10FE) : NextPc s i a
  | returns (h : i = .ret) : NextPc s i (s.top + 2#16)

theorem nextPc_skipIf (s : State) (i : Instr) (c : Bool) : NextPc s i (s.skipIf c).pc := by
  cases c
  · exact .advances
  · exact .skips

theorem nextPc_absolute (s : State) (i : Instr) (nnn : Addr12) : NextPc s i (absolute nnn) := by
  have := nnn.isLt
  exact .jumps (by rw [absolute_toNat]; omega)

/-- The furthest target is 0xFFF + 0xFF (R103). -/
theorem nextPc_offsetTarget (s : State) (i : Instr) (nnn : Addr12) (b : Byte) : NextPc s i (offsetTarget nnn b) := by
  have := nnn.isLt
  have := b.isLt
  exact .jumps (by rw [offsetTarget_toNat]; omega)

theorem nextPc_keyWait (s : State) (i : Instr) (x : Nibble) (key : Option Nat) : NextPc s i (s.keyWait x key).pc := by
  cases key
  · exact .stays
  · exact .advances

theorem leaves_nextPc (i : Instr) (s : State) : Leaves i s fun u => NextPc s i u.pc := by
  cases i
  case ret => exact ⟨_, rfl, .returns rfl⟩
  case jp nnn | call nnn => exact ⟨_, rfl, nextPc_absolute s _ nnn⟩
  case jpV0 nnn => exact ⟨_, rfl, nextPc_offsetTarget s _ nnn _⟩
  case seImm | sneImm | seReg | sneReg | skp | sknp => exact ⟨_, rfl, nextPc_skipIf s _ _⟩
  case ldVxK x => exact ⟨_, rfl, nextPc_keyWait s _ x _⟩
  all_goals exact ⟨_, rfl, .advances⟩

/-! ### The invariant over an instruction -/

/-- The invariant reads four fields. -/
theorem inv_congr (h : Inv s) (hmem : t.mem = s.mem) (hpc : t.pc = s.pc) (hsp : t.sp = s.sp) (hstack : t.stack = s.stack) :
    Inv t :=
  ⟨hmem ▸ h.mem, hpc ▸ h.pc, fun k hk => hstack ▸ h.stack k (hsp ▸ hk)⟩

theorem inv_sample (h : Inv s) : Inv s.sample := inv_congr h rfl rfl rfl rfl

theorem inv_tick (h : Inv s) : Inv s.tick := inv_congr h rfl rfl rfl rfl

theorem inv_setStatus (h : Inv s) (o : Status) : Inv (s.setStatus o) := inv_congr h rfl rfl rfl rfl

/-- The slot a return pops is live. -/
theorem inv_top_le (h : Inv s) (hpos : 0 < s.sp.val) : s.top.toNat ≤ 0xFFE := by
  have := s.sp.isLt
  rw [top_eq_slot (k := ⟨s.sp.val - 1, by omega⟩) (Nat.sub_add_cancel hpos)]
  exact h.stack _ (Nat.sub_lt hpos Nat.one_pos)

/-- From a fetched instruction and a popped address, each at most 0xFFE, no choice of PC is past 0x10FE. -/
theorem NextPc.le {a : Word} (h : NextPc s i a) (hpc : s.pc.toNat ≤ 0xFFE) (htop : i = .ret → s.top.toNat ≤ 0xFFE) :
    a.toNat ≤ 0x10FE := by
  cases h with
  | stays => omega
  | advances => rw [BitVec.toNat_add, BitVec.toNat_ofNat]; omega
  | skips => rw [BitVec.toNat_add, BitVec.toNat_ofNat]; omega
  | jumps h => exact h
  | returns h => have := htop h; rw [BitVec.toNat_add, BitVec.toNat_ofNat]; omega

/-- Live stack slots: a return leaves fewer of them, a call adds the address of a fetched instruction. -/
theorem exec_keeps_live (h : Inv s) (hpc : s.pc.toNat ≤ 0xFFE) (hexec : exec i s = .next u) (k : Fin 16)
    (hk : k.val < u.sp.val) : (u.stack[k]).toNat ≤ 0xFFE := by
  obtain hcalls | rfl | ⟨nnn, rfl⟩ := footprint_calls s i
  · obtain ⟨hsp, hstack⟩ := (exec_keeps hexec).calls hcalls
    exact hstack ▸ h.stack k (hsp ▸ hk)
  · obtain ⟨-, rfl⟩ := exec_ret_next hexec
    exact h.stack k (Nat.lt_of_lt_of_le hk (Nat.sub_le _ _))
  · obtain ⟨hlt, rfl⟩ := exec_call_next hexec
    rw [State.setPc_sp, s.push_sp hlt] at hk
    rw [State.setPc_stack, push_slot hlt]
    split
    · exact hpc
    · exact h.stack k (by omega)

/-- An instruction that a fetch accepted keeps the invariant where it completes. -/
theorem exec_keeps_inv (h : Inv s) (hfetch : s.fetchOk = true) (hexec : exec i s = .next u) : Inv u := by
  have hpc : s.pc.toNat ≤ 0xFFE := Nat.le_of_succ_le_succ (fetchOk_iff.1 hfetch)
  refine ⟨?_, ?_, exec_keeps_live h hpc hexec⟩
  · obtain hmem | ⟨a, bs, hmem⟩ := (leaves_mem i s).of_next hexec
    · exact hmem ▸ h.mem
    · exact hmem ▸ Memory.wf_store h.mem a bs
  · refine ((leaves_nextPc i s).of_next hexec).le hpc fun hret => inv_top_le h ?_
    subst hret
    exact (exec_ret_next hexec).1

theorem step_keeps_inv (h : Inv s) (hstep : step s = .next t) : Inv t := by
  obtain ⟨hfetch, i, u, -, hexec, rfl⟩ := step_next_iff.1 hstep
  exact inv_tick (exec_keeps_inv (inv_sample h) hfetch hexec)

/-- A canonical memory, PC at 0x200 and no live stack slot. -/
theorem inv_of_start (hmem : t.mem.wf) (hpc : t.pc = 0x200#16) (hsp : t.sp = 0) : Inv t :=
  ⟨hmem, by rw [hpc]; decide, fun k hk => absurd (hsp ▸ hk) (Nat.not_lt_zero _)⟩

end Invariant

/-- Settles O21: a completed step is an accepted instruction between the sample and the tick; any other step leaves the
sampled state with a `status`. -/
theorem everyStepKeepsInvariant : Obligations.EveryStepKeepsInvariant := by
  refine fun s h => ⟨fun t => step_keeps_inv h, ?_⟩
  by_cases hnext : ∃ t, step s = .next t
  · obtain ⟨t, hstep⟩ := hnext
    exact stateAfter_next hstep ▸ step_keeps_inv h hstep
  · obtain ⟨o, hleft⟩ := stateAfter_of_not_next (not_exists.1 hnext)
    exact hleft ▸ inv_setStatus (inv_sample h) o

/-- Settles O22: reset has the empty memory, PC at 0x200 and SP at 0. -/
theorem resetMeetsInvariant : Obligations.ResetMeetsInvariant := inv_of_start Memory.wf_nil rfl rfl

/-- Settles O23: an accepted load is two stores and a start at 0x200 with an empty stack, a rejected one changes nothing,
and reset starts from the empty memory. -/
theorem loadAndResetKeepInvariant : Obligations.LoadAndResetKeepInvariant := by
  refine fun font image s h => ⟨?_, inv_of_start Memory.wf_nil rfl rfl⟩
  obtain hlong | hfits := Nat.lt_or_ge 3584 image.length
  · rw [load_of_gt hlong]
    exact h
  · rw [load_of_le hfits]
    exact inv_of_start (Memory.wf_store (Memory.wf_store h.mem _ _) _ _) rfl rfl

end Sys2Proof.Proofs
